-- ==== Sys2Proof/Word.lean ====
section
/-! DEFINITION. The two bit-vector widths of the core: bytes (R9, 00_scope.md) and command words (R70, 30_encoding.md). -/

namespace Sys2Proof

/-- An unsigned 8-bit value, bit 0 least significant (R9, R10, R54). `+` wraps modulo 256 and `^^^` is the bitwise
exclusive or (R12). -/
abbrev Byte := BitVec 8

/-- One command word, `cmd_word[11:0]` (R70). -/
abbrev Word := BitVec 12

end Sys2Proof
end

