-- ==== Sys2Proof/Syntax.lean ====
section
/-! DEFINITION. The commands of the core, one constructor per row of spec/opcode_table.json (R73, R74, 30_encoding.md). -/

namespace Sys2Proof

/-- A decoded command. NOP, INIT and FINISH have no operand: their data field is ignored (R72). -/
inductive Instr where
  /-- op 0x0 (R131). -/
  | nop
  /-- op 0x1 (R133). -/
  | init
  /-- op 0x2, with its one operand, the message byte d = cmd_word[7:0] (R135). -/
  | absorb (d : Byte)
  /-- op 0x3 (R137). -/
  | finish
  /-- A reserved code of the row 01oo, op in 0x4..0x7 (R139). DESIGN CHOICE: one constructor for each of the two rows (log 12). -/
  | reservedLow (op : BitVec 4)
  /-- A reserved code of the row 1ooo, op in 0x8..0xF (R139). -/
  | reservedHigh (op : BitVec 4)
deriving DecidableEq, Repr

end Sys2Proof
end

