-- ==== Sys2Proof/WellFormed.lean ====
section
/-! DEFINITION. Which commands are terms of the opcode map: a reserved code lies in the range of its own row (R73, R75). -/

namespace Sys2Proof

/-- The check. The only operands a row restricts are the reserved codes: 0x4..0x7 in the row 01oo, 0x8..0xF in the row 1ooo. -/
def Instr.wellFormed : Instr → Bool
  | .nop => true
  | .init => true
  | .absorb _ => true
  | .finish => true
  | .reservedLow op => decide (4 ≤ op.toNat) && decide (op.toNat ≤ 7)
  | .reservedHigh op => decide (8 ≤ op.toNat)

end Sys2Proof
end

