-- ==== Sys2Proof/Decode.lean ====
section
/-! DEFINITION. The decoder of command words, total on all 4096 of them (R74, 30_encoding.md), the rejection by name of a
number that is no 12-bit word, and the encoder written from the same opcode map (R70, R73). -/

namespace Sys2Proof

/-- op = cmd_word[11:8] (R70). -/
def opField (w : Word) : BitVec 4 := w.extractLsb' 8 4

/-- data = cmd_word[7:0] (R70). -/
def dataField (w : Word) : Byte := w.extractLsb' 0 8

/-- R74: each of the 4096 words decodes to one command, chosen by op alone. -/
def decode (w : Word) : Instr :=
  match (opField w).toNat with
  | 0 => .nop
  | 1 => .init
  | 2 => .absorb (dataField w)
  | 3 => .finish
  | op => if op ≤ 7 then .reservedLow (opField w) else .reservedHigh (opField w)

/-- Why a number is no command. -/
inductive DecodeReject where
  /-- The command channel has 12 bits (R51): a value of 4096 or more cannot stand on cmd_word. -/
  | tooWide (value : Nat)
deriving DecidableEq, Repr

/-- The 12-bit word a number stands for, or the rejection by name. -/
def wordOfNat (v : Nat) : Except DecodeReject Word :=
  if v < 4096 then .ok (BitVec.ofNat 12 v) else .error (.tooWide v)

/-- The decoder on any number: total, rejecting by name. -/
def decodeNat (v : Nat) : Except DecodeReject Instr :=
  match wordOfNat v with
  | .ok w => .ok (decode w)
  | .error e => .error e

/-- The op of a command in the opcode map (R73). -/
def opOf : Instr → BitVec 4
  | .nop => 0
  | .init => 1
  | .absorb _ => 2
  | .finish => 3
  | .reservedLow op => op
  | .reservedHigh op => op

/-- The data field an assembler writes: the message byte for ABSORB, 0 for every other command (R72, R78). -/
def dataOf : Instr → Byte
  | .nop => 0
  | .init => 0
  | .absorb d => d
  | .finish => 0
  | .reservedLow _ => 0
  | .reservedHigh _ => 0

/-- op in the upper four bits, data in the lower eight (R70, R73). -/
def encode (i : Instr) : Word := opOf i ++ dataOf i

/-- The number of a table row's instruction: bits above `nbits` are 0 (spec/opcode_table.json's numbering). -/
def tableValue (nbits w : Nat) : Nat := w % 2 ^ nbits

/-- The command the decoder reads from a word numbered as spec/opcode_table.json numbers it. The core stores no command, so
the word is the value on cmd_word itself (R51, R70); a value of more than 12 bits is refused (DESIGN CHOICE: log 13). -/
def decodeTableWord (nbits w : Nat) : Option Instr :=
  match decodeNat (tableValue nbits w) with
  | .ok i => some i
  | .error _ => none

end Sys2Proof
end

