-- ==== Sys2Proof/Config.lean ====
section
/-! DEFINITION. What one core is built with: the permutation table PERM and the counter width LENW (R8, 00_scope.md), and
the one value the spec leaves free, dig_out outside DONE (R190, 44_output_mux.md). -/

namespace Sys2Proof

/-- The implementation's parameters, fixed for one core (R8). A table that is not a permutation of 0..255 is not a value of
this type, so that it is refused rather than given a meaning (R34). -/
structure Config where
  /-- The contents of the permutation table S, entry 0 first (R31). -/
  PERM : Vector Byte 256
  /-- The width in bits of the message-length counter CNT (R8 (b)). -/
  LENW : Nat
  /-- R34: the 256 entries are pairwise distinct, so that PERM is a bijection on the bytes. -/
  perm_nodup : PERM.toList.Nodup
  /-- R8 (b): LENW is at least 1. -/
  lenw_pos : 1 ≤ LENW
deriving DecidableEq, Repr

namespace Config

def permRow0 : List Byte :=
  [0x29, 0x2e, 0x43, 0xc9, 0xa2, 0xd8, 0x7c, 0x01, 0x3d, 0x36, 0x54, 0xa1, 0xec, 0xf0, 0x06, 0x13]

def permRow1 : List Byte :=
  [0x62, 0xa7, 0x05, 0xf3, 0xc0, 0xc7, 0x73, 0x8c, 0x98, 0x93, 0x2b, 0xd9, 0xbc, 0x4c, 0x82, 0xca]

def permRow2 : List Byte :=
  [0x1e, 0x9b, 0x57, 0x3c, 0xfd, 0xd4, 0xe0, 0x16, 0x67, 0x42, 0x6f, 0x18, 0x8a, 0x17, 0xe5, 0x12]

def permRow3 : List Byte :=
  [0xbe, 0x4e, 0xc4, 0xd6, 0xda, 0x9e, 0xde, 0x49, 0xa0, 0xfb, 0xf5, 0x8e, 0xbb, 0x2f, 0xee, 0x7a]

def permRow4 : List Byte :=
  [0xa9, 0x68, 0x79, 0x91, 0x15, 0xb2, 0x07, 0x3f, 0x94, 0xc2, 0x10, 0x89, 0x0b, 0x22, 0x5f, 0x21]

def permRow5 : List Byte :=
  [0x80, 0x7f, 0x5d, 0x9a, 0x5a, 0x90, 0x32, 0x27, 0x35, 0x3e, 0xcc, 0xe7, 0xbf, 0xf7, 0x97, 0x03]

def permRow6 : List Byte :=
  [0xff, 0x19, 0x30, 0xb3, 0x48, 0xa5, 0xb5, 0xd1, 0xd7, 0x5e, 0x92, 0x2a, 0xac, 0x56, 0xaa, 0xc6]

def permRow7 : List Byte :=
  [0x4f, 0xb8, 0x38, 0xd2, 0x96, 0xa4, 0x7d, 0xb6, 0x76, 0xfc, 0x6b, 0xe2, 0x9c, 0x74, 0x04, 0xf1]

def permRow8 : List Byte :=
  [0x45, 0x9d, 0x70, 0x59, 0x64, 0x71, 0x87, 0x20, 0x86, 0x5b, 0xcf, 0x65, 0xe6, 0x2d, 0xa8, 0x02]

def permRow9 : List Byte :=
  [0x1b, 0x60, 0x25, 0xad, 0xae, 0xb0, 0xb9, 0xf6, 0x1c, 0x46, 0x61, 0x69, 0x34, 0x40, 0x7e, 0x0f]

def permRowA : List Byte :=
  [0x55, 0x47, 0xa3, 0x23, 0xdd, 0x51, 0xaf, 0x3a, 0xc3, 0x5c, 0xf9, 0xce, 0xba, 0xc5, 0xea, 0x26]

def permRowB : List Byte :=
  [0x2c, 0x53, 0x0d, 0x6e, 0x85, 0x28, 0x84, 0x09, 0xd3, 0xdf, 0xcd, 0xf4, 0x41, 0x81, 0x4d, 0x52]

def permRowC : List Byte :=
  [0x6a, 0xdc, 0x37, 0xc8, 0x6c, 0xc1, 0xab, 0xfa, 0x24, 0xe1, 0x7b, 0x08, 0x0c, 0xbd, 0xb1, 0x4a]

def permRowD : List Byte :=
  [0x78, 0x88, 0x95, 0x8b, 0xe3, 0x63, 0xe8, 0x6d, 0xe9, 0xcb, 0xd5, 0xfe, 0x3b, 0x00, 0x1d, 0x39]

def permRowE : List Byte :=
  [0xf2, 0xef, 0xb7, 0x0e, 0x66, 0x58, 0xd0, 0xe4, 0xa6, 0x77, 0x72, 0xf8, 0xeb, 0x75, 0x4b, 0x0a]

def permRowF : List Byte :=
  [0x31, 0x44, 0x50, 0xb4, 0x8f, 0xed, 0x1f, 0x1a, 0xdb, 0x99, 0x8d, 0x33, 0x9f, 0x11, 0x83, 0x14]

/-- R33: the default table, rows 0_ to F_ of the spec's table (RFC 1319 PI_SUBST). PRESUMED: the spec marks these values as
general knowledge, not in its source (log 1). -/
def rfc1319List : List Byte :=
  permRow0 ++ (permRow1 ++ (permRow2 ++ (permRow3 ++ (permRow4 ++ (permRow5 ++ (permRow6 ++ (permRow7 ++
  (permRow8 ++ (permRow9 ++ (permRowA ++ (permRowB ++ (permRowC ++ (permRowD ++ (permRowE ++ permRowF))))))))))))))

def rfc1319 : Vector Byte 256 := ⟨⟨rfc1319List⟩, by decide +kernel⟩

/-- No number of the list repeats another, nor one whose bit is set in `seen`: one pass, so that the kernel checks a table of
256 entries quickly. -/
def noRepeats : List Nat → Nat → Bool
  | [], _ => true
  | a :: l, seen => !(seen.testBit a) && noRepeats l (seen ||| 2 ^ a)

theorem nodup_of_noRepeats (l : List Nat) :
    ∀ seen, noRepeats l seen = true → l.Nodup ∧ ∀ a ∈ l, seen.testBit a = false := by
  induction l with
  | nil => simp
  | cons a l ih =>
    intro seen h
    simp only [noRepeats, Bool.and_eq_true, Bool.not_eq_true'] at h
    obtain ⟨hnd, hbits⟩ := ih _ h.2
    have hsplit : ∀ b ∈ l, seen.testBit b = false ∧ a ≠ b := fun b hb => by
      simpa [Nat.testBit_or, Nat.testBit_two_pow] using hbits b hb
    refine ⟨List.nodup_cons.mpr ⟨fun ha => (hsplit a ha).2 rfl, hnd⟩, ?_⟩
    simpa [h.1] using fun b hb => (hsplit b hb).1

theorem rfc1319_nodup : rfc1319.toList.Nodup :=
  List.Nodup.of_map BitVec.toNat
    (nodup_of_noRepeats (rfc1319List.map BitVec.toNat) 0 (by decide +kernel)).1

/-- The spec's defaults: the table of R33 and LENW = 64 (R8). -/
def default : Config := ⟨rfc1319, 64, rfc1319_nodup, by decide⟩

/-- The largest value CNT can hold, 2^LENW - 1 (R21). -/
def cntMax (cfg : Config) : Nat := 2 ^ cfg.LENW - 1

/-- FREE VALUE (R190, U1; log 5): the byte dig_out shows outside DONE, for the draw with this number and this dig_sel.
Nothing constrains it. -/
opaque digDraw : Nat → BitVec 4 → Byte

end Config

end Sys2Proof
end

