-- ==== Sys2Proof/Machine/State.lean ====
section
/-! DEFINITION. Everything the core holds (R21, 10_state.md) and the host's side of its ports (R51, 20_memory.md), as plain
data; the state after reset (R38, R230). The core has no memory (R14, R50). -/

namespace Sys2Proof.Machine

/-- The six phases of the sequencer (R22). Their binary encoding is not observable (U3). -/
inductive Phase where
  /-- No message is open: the phase after reset. -/
  | idle
  /-- A message is open; ABSORB and FINISH are taken. -/
  | absorb
  /-- The padding engine writes padding bytes. -/
  | pad
  /-- The compression pass runs on the block in X[16..47]. -/
  | mix
  /-- The checksum block is being loaded. -/
  | feedc
  /-- The digest is in X[0..15]. -/
  | done
deriving DecidableEq, Repr

/-- Which block the running MIX phase compresses (R23). -/
inductive Kind where
  /-- A block of message bytes only; ABSORB follows. -/
  | msg
  /-- The block that holds the padding; FEEDC follows. -/
  | pad
  /-- The checksum block; DONE follows. -/
  | csum
deriving DecidableEq, Repr

/-- The three sticky error flags a command can raise (R15, R35). -/
inductive ErrorFlag where
  /-- ERR_ILL: a reserved opcode was accepted (R201). -/
  | ill
  /-- ERR_SEQ: ABSORB or FINISH was accepted outside ABSORB phase (R202). -/
  | seq
  /-- ERR_LEN: a byte was refused because CNT was at its maximum (R203). -/
  | len
deriving DecidableEq, Repr

/-- What the host does on the input ports of R51 in one step. DESIGN CHOICE: a read and a command take separate steps (log 3,
log 18). -/
inductive HostAct where
  /-- cmd_valid = 1 with this word, presented until a step accepts it (R130: held, neither lost nor queued). -/
  | issue (w : Word)
  /-- cmd_valid = 1 with this word in this step only: withdrawn if the step does not accept it (R237). -/
  | offer (w : Word)
  /-- cmd_valid = 0 in this step (R243: the host may issue nothing). -/
  | wait
  /-- cmd_valid = 0; dig_sel is driven and the four output ports are read (R17, R58, R190). -/
  | sample (sel : BitVec 4)
  /-- rst = 1 in this step, whether or not a command is presented with it (R230). -/
  | reset (presented : Option Word)
  /-- Nothing is issued until cmd_ready = 1 (R79, WAITREADY). -/
  | waitReady
  /-- Nothing is issued until dig_valid = 1 (R79, WAITDONE). -/
  | waitDone
deriving DecidableEq, Repr

/-- The output ports of R51 as the host read them once, with the select it drove. -/
structure Sample where
  dig_sel : BitVec 4
  cmd_ready : Bool
  dig_out : Byte
  dig_valid : Bool
  status : Byte
deriving DecidableEq, Repr

/-- The host's side of the ports: the model's own fields, no state of the core (DESIGN CHOICE: log 3, log 5,
log 6). -/
structure HostSide where
  /-- What the host will do, one entry a step, first entry next; an empty list is a host that issues nothing more. -/
  acts : List HostAct
  /-- What the host has read, oldest first. -/
  samples : List Sample
  /-- The number of the next draw of the free byte on dig_out (R190, U1). -/
  draws : Nat
deriving DecidableEq, Repr

/-- The state: the registers of R21 under the spec's names, the parameters of R8 (`cfg`, with the table S), and the host's
side of the ports. A register with a legal range narrower than its bits has that range as its type (R21; DEDUCED: log 9). -/
structure State where
  /-- PERM and LENW (R8): the read-only table S of R21 and the width of CNT. -/
  cfg : Config
  /-- X[0..47], the digest state in three regions of 16 bytes (R24). -/
  X : Vector Byte 48
  /-- C[0..15], the checksum block (R25). -/
  C : Vector Byte 16
  /-- The checksum carry (R26). -/
  CL : Byte
  /-- The running value of the compression pass (R27). -/
  T : Byte
  /-- The byte position in the block being loaded, 0..15 (R28). -/
  POS : Fin 16
  /-- The message bytes accepted since INIT, 0..2^LENW - 1 (R21; the bound is an invariant, Safety.lean). -/
  CNT : Nat
  /-- The padding value latched at FINISH, 0 or 1..16 (R150). -/
  PADV : Fin 17
  /-- The round index, 0..17 (R28). -/
  J : Fin 18
  /-- The position index within a round, 0..47 (R28). -/
  K : Fin 48
  /-- The sequencer phase (R22). -/
  PHASE : Phase
  /-- Which block MIX compresses (R23). -/
  KIND : Kind
  /-- Sticky flag, status bit 4 (R201). -/
  ERR_ILL : Bool
  /-- Sticky flag, status bit 5 (R202). -/
  ERR_SEQ : Bool
  /-- Sticky flag, status bit 6 (R203). -/
  ERR_LEN : Bool
  /-- The host's side of the ports (the model's own). -/
  host : HostSide
deriving DecidableEq, Repr

/-- The faults of the core: none. R200, R204 and R205 state that it has no exception, no trap and no fatal state, and R219 that
an error flag is ordinary state and no model fault, so nothing raises one (DEDUCED: log 14). Safe: no behaviour is cut off. -/
inductive Fault where
deriving DecidableEq, Repr

/-- The refusals of the model. -/
inductive Refusal where
  /-- Raised by nobody: every command of the opcode table has its meaning. It would stand in an arm of exec for a command
  without one, and would be safe (a stop where the core goes on). -/
  | notModelled (mnemonic : String)
deriving DecidableEq, Repr

/-- The state right after reset (R38, R230): every register 0, PHASE = IDLE, KIND = MSG; the parameters at the spec's defaults
(R8, R33; log 1, log 2); a host that does nothing (log 4). -/
def State.reset : State where
  cfg := Config.default
  X := Vector.replicate 48 0
  C := Vector.replicate 16 0
  CL := 0
  T := 0
  POS := 0
  CNT := 0
  PADV := 0
  J := 0
  K := 0
  PHASE := .idle
  KIND := .msg
  ERR_ILL := false
  ERR_SEQ := false
  ERR_LEN := false
  host := { acts := [], samples := [], draws := 0 }

end Sys2Proof.Machine
end

