-- ==== Sys2Proof/Machine/Operands.lean ====
section
/-! DEFINITION. Reading and writing the array registers and the table (R13, 00_scope.md; R31, 10_state.md), and the two values
a rule forms from a counter. -/

namespace Sys2Proof.Machine

/-- S[v], entry v of a permutation table: total, since v is a full byte (R31, R50). -/
def tableEntry (cfg : Config) (v : Byte) : Byte := cfg.PERM[v.toNat]'v.isLt

/-- X[i] (R13). -/
def getX (s : State) (i : Fin 48) : Byte := s.X[i.val]

/-- X[i] <- v (R13). -/
def setX (i : Fin 48) (v : Byte) (s : State) : State := { s with X := s.X.set i.val v }

/-- C[i] (R13). -/
def getC (s : State) (i : Fin 16) : Byte := s.C[i.val]

/-- C[i] <- v (R13). -/
def setC (i : Fin 16) (v : Byte) (s : State) : State := { s with C := s.C.set i.val v }

/-- The index of byte p of region 0, X[0..15] (R24). -/
def region0 (p : Fin 16) : Fin 48 := ⟨p.val, by omega⟩

/-- The index of byte p of region 1, X[16..31] (R24). -/
def region1 (p : Fin 16) : Fin 48 := ⟨16 + p.val, by omega⟩

/-- The index of byte p of region 2, X[32..47] (R24). -/
def region2 (p : Fin 16) : Fin 48 := ⟨32 + p.val, by omega⟩

/-- The digest byte a 4-bit select reaches: X[zext(dig_sel)], region 0 only (R190). -/
def selected (sel : BitVec 4) : Fin 16 := ⟨sel.toNat, sel.isLt⟩

/-- zext_8(PADV), the padding byte (R151). -/
def padByte (s : State) : Byte := BitVec.ofNat 8 s.PADV.val

/-- 16 - POS, the padding length FINISH latches, always in 1..16 (R137). -/
def padLeft (p : Fin 16) : Fin 17 := ⟨16 - p.val, by omega⟩

/-- (t + j) mod 256, the addition at the end of round j (R12, R175). -/
def addRound (t : Byte) (j : Fin 18) : Byte := t + BitVec.ofNat 8 j.val

end Sys2Proof.Machine
end

