-- ==== Sys2Proof/Machine/Flags.lean ====
section
/-! DEFINITION. The error flags and the outputs computed from the state: cmd_ready (R130, 41_commands.md), dig_valid, dig_out
and the status port (R190, R191, R193, 44_output_mux.md). -/

namespace Sys2Proof.Machine

/-- PHASE is PAD, MIX or FEEDC: only the sequencer steps (R22). -/
def busyPhase : Phase → Bool
  | .idle => false
  | .absorb => false
  | .pad => true
  | .mix => true
  | .feedc => true
  | .done => false

/-- A message is open (R193, OPEN). -/
def openPhase : Phase → Bool
  | .idle => false
  | .absorb => true
  | .pad => true
  | .mix => true
  | .feedc => true
  | .done => false

/-- cmd_ready = (PHASE in IDLE, ABSORB, DONE) (R130). -/
def cmdReady (s : State) : Bool := !busyPhase s.PHASE

/-- dig_valid = (PHASE = DONE) (R191). -/
def digValid (s : State) : Bool := decide (s.PHASE = .done)

/-- dig_out for a select (R190). Outside DONE the byte is unspecified: it is the argument `draw`, which the step takes from the
free value Config.digDraw (log 5). -/
def digOut (draw : Byte) (sel : BitVec 4) (s : State) : Byte :=
  if s.PHASE = .done then getX s (region0 (selected sel)) else draw

/-- status[7:0] (R193): bit 7 first in the concatenation. -/
def statusPort (s : State) : Byte :=
  0#1 ++ BitVec.ofBool s.ERR_LEN ++ BitVec.ofBool s.ERR_SEQ ++ BitVec.ofBool s.ERR_ILL ++
    0#1 ++ BitVec.ofBool (openPhase s.PHASE) ++ BitVec.ofBool (digValid s) ++ BitVec.ofBool (busyPhase s.PHASE)

/-- Set one sticky flag (R206: a set flag stays set, nothing is counted). -/
def setFlag (e : ErrorFlag) (s : State) : State :=
  match e with
  | .ill => { s with ERR_ILL := true }
  | .seq => { s with ERR_SEQ := true }
  | .len => { s with ERR_LEN := true }

/-- CNT = 2^LENW - 1: no further byte can be counted (R203). -/
def cntFull (s : State) : Bool := decide (s.CNT = s.cfg.cntMax)

end Sys2Proof.Machine
end

