-- ==== Sys2Proof/Machine/Ops.lean ====
section
/-! DEFINITION. The operations the commands and the micro-steps share: raising an error, the datapath primitives CsumStep (R157,
42_padding_checksum.md), LoadByte (R170) and StartMix (R174, 43_state_datapath.md), the per-message initial values (R133), and
the acceptance of a command (R130, 41_commands.md). The core has no trap entry and no trap return (R209, R211): raising an
error sets its flag, and INIT and reset clear the flags. -/

namespace Sys2Proof.Machine

/-- The answer of every command: the core never stops (R200, R204). -/
abbrev Answer := Host.Outcome State Fault Refusal

/-- raise Error(F): the flag is set, the command's effect ends, no other state changes and control goes nowhere (R15, R200,
R209). -/
def raiseError (e : ErrorFlag) (s : State) : Answer := .next (setFlag e s)

/-- A command runs only where cmd_ready = 1. In a busy phase it is held: it is not accepted and changes no state (R130, R132).
DESIGN CHOICE: R140 leaves a command in a busy phase without a value, and here it is the state as it was (log 10). -/
def whenReady (s : State) (run : State → Answer) : Answer :=
  if cmdReady s then run s else .next s

/-- The register values INIT and reset share (R38, R133, R230): everything 0, KIND = MSG. PHASE, the parameters and the host's
side are left to the caller. -/
def clearRegisters (s : State) : State :=
  { s with
    X := Vector.replicate 48 0, C := Vector.replicate 16 0, CL := 0, T := 0, J := 0, K := 0, POS := 0, CNT := 0, PADV := 0,
    KIND := .msg, ERR_ILL := false, ERR_SEQ := false, ERR_LEN := false }

/-- A step with rst = 1, from any phase (R230, R231). The table is not touched (R32). -/
def applyReset (s : State) : State := { clearRegisters s with PHASE := .idle }

/-- CsumStep(c) (R157): C[POS] <- C[POS] ^ S[c ^ CL], then CL <- C[POS], the value just written. -/
def csumStep (c : Byte) (s : State) : State :=
  let s1 := setC s.POS (getC s s.POS ^^^ tableEntry s.cfg (c ^^^ s.CL)) s
  { s1 with CL := getC s1 s1.POS }

/-- LoadByte(v) (R170): X[16+POS] <- v, then X[32+POS] <- v ^ X[POS]. -/
def loadByte (v : Byte) (s : State) : State :=
  let s1 := setX (region1 s.POS) v s
  setX (region2 s1.POS) (v ^^^ getX s1 (region0 s1.POS)) s1

/-- StartMix(kind) (R174). -/
def startMix (kind : Kind) (s : State) : State :=
  { s with PHASE := .mix, KIND := kind, T := 0, J := 0, K := 0 }

/-- The end of every byte load (R135, R152, R178): after the block's 16th byte POS wraps to 0 and the pass starts; otherwise POS
advances. -/
def advancePos (kind : Kind) (s : State) : State :=
  if s.POS = 15 then startMix kind { s with POS := 0 } else { s with POS := s.POS + 1 }

/-- Next(KIND): the phase after a compression pass (R176). -/
def nextPhase : Kind → Phase
  | .msg => .absorb
  | .pad => .feedc
  | .csum => .done

end Sys2Proof.Machine
end

