-- ==== Sys2Proof/Machine/Commands.lean ====
section
/-! DEFINITION. The meaning of every command of the opcode table (R131 to R139, 41_commands.md), one definition per
constructor. -/

namespace Sys2Proof.Machine

/-- NOP: no effect, never raises (R131). -/
def execNop (s : State) : Answer := whenReady s fun s => .next s

/-- INIT: every register at its per-message initial value, the error flags cleared, PHASE = ABSORB; in IDLE, ABSORB and DONE
alike (R133, R134). -/
def execInit (s : State) : Answer := whenReady s fun s => .next { clearRegisters s with PHASE := .absorb }

/-- ABSORB d (R135): the phase check, then the length check (R207), then the byte enters the checksum and the state register. -/
def execAbsorb (d : Byte) (s : State) : Answer := whenReady s fun s =>
  if s.PHASE ≠ .absorb then raiseError .seq s
  else if cntFull s then raiseError .len s
  else
    let s1 := loadByte d (csumStep d s)
    .next (advancePos .msg { s1 with CNT := s1.CNT + 1 })

/-- FINISH (R137): the phase check, then the padding length is latched and the padding engine takes over. -/
def execFinish (s : State) : Answer := whenReady s fun s =>
  if s.PHASE ≠ .absorb then raiseError .seq s
  else .next { s with PADV := padLeft s.POS, PHASE := .pad }

/-- A reserved code of 0x4..0x7: ERR_ILL and nothing else, whatever the code (R75, R139). -/
def execReservedLow (_op : BitVec 4) (s : State) : Answer := whenReady s fun s => raiseError .ill s

/-- A reserved code of 0x8..0xF: ERR_ILL and nothing else, whatever the code (R75, R139). -/
def execReservedHigh (_op : BitVec 4) (s : State) : Answer := whenReady s fun s => raiseError .ill s

end Sys2Proof.Machine
end

