-- ==== Sys2Proof/Machine/Dispatch.lean ====
section
/-! DEFINITION. The dispatch: one arm per command (R140, 41_commands.md). -/

namespace Sys2Proof.Machine

def exec (i : Instr) (s : State) : Host.Outcome State Fault Refusal :=
  match i with
  | .nop => Sys2Proof.Machine.execNop s
  | .init => Sys2Proof.Machine.execInit s
  | .absorb d => Sys2Proof.Machine.execAbsorb d s
  | .finish => Sys2Proof.Machine.execFinish s
  | .reservedLow op => Sys2Proof.Machine.execReservedLow op s
  | .reservedHigh op => Sys2Proof.Machine.execReservedHigh op s

end Sys2Proof.Machine
end

