-- ==== Sys2Proof/Machine/Sequencer.lean ====
section
/-! DEFINITION. The sequencer's micro-steps: PAD_STEP (R152, 42_padding_checksum.md), MIX_STEP (R175) and FEEDC_STEP (R178,
43_state_datapath.md). No micro-step raises (R204). -/

namespace Sys2Proof.Machine

/-- PAD_STEP: the padding byte enters the checksum and the state register; after position 15 the pass starts (R152). CNT does
not change: a padding byte is no message byte (R154). -/
def padStep (s : State) : State :=
  advancePos .pad (loadByte (padByte s) (csumStep (padByte s) s))

/-- MIX_STEP, one position of one round (R175): the table index is the old T; T becomes the byte just written, and at the end
of round J has J added; the pass ends after round 17 (R176, R177). -/
def mixStep (s : State) : State :=
  let v := getX s s.K ^^^ tableEntry s.cfg s.T
  let s1 : State := { setX s.K v s with T := v }
  if s1.K = 47 then
    let s2 : State := { s1 with K := 0, T := addRound s1.T s1.J }
    if s2.J = 17 then { s2 with J := 0, PHASE := nextPhase s2.KIND }
    else { s2 with J := s2.J + 1 }
  else { s1 with K := s1.K + 1 }

/-- FEEDC_STEP: byte POS of the checksum block is loaded, without CsumStep; after position 15 the last pass starts (R178). -/
def feedcStep (s : State) : State :=
  advancePos .csum (loadByte (getC s s.POS) s)

/-- The one micro-step the phase enables (R22, R243); in a ready phase the sequencer does nothing. -/
def microStep (s : State) : State :=
  match s.PHASE with
  | .idle => s
  | .absorb => s
  | .pad => padStep s
  | .mix => mixStep s
  | .feedc => feedcStep s
  | .done => s

end Sys2Proof.Machine
end

