-- ==== Sys2Proof/Machine/Ports.lean ====
section
/-! DEFINITION. One step of the core at its ports: the host's act, the reset priority (R208, 60_exceptions.md), the acceptance
of a command (R130, 41_commands.md), the micro-step of a busy phase (R17, 00_scope.md), and what the host reads (R58, R62,
20_memory.md). -/

namespace Sys2Proof.Machine

/-- What the host does in this step: its next act, or nothing when it has none left (R243). -/
def hostAct (s : State) : HostAct := s.host.acts.headD .wait

/-- rst in this step (R230). -/
def rstDriven (s : State) : Bool :=
  match hostAct s with
  | .issue _ => false
  | .offer _ => false
  | .wait => false
  | .sample _ => false
  | .reset _ => true
  | .waitReady => false
  | .waitDone => false

/-- cmd_word in this step, where cmd_valid = 1 (R51). -/
def presented (s : State) : Option Word :=
  match hostAct s with
  | .issue w => some w
  | .offer w => some w
  | .wait => none
  | .sample _ => none
  | .reset w => w
  | .waitReady => none
  | .waitDone => none

/-- The command this step accepts: exactly when cmd_valid = 1, cmd_ready = 1 and rst = 0 (R130). -/
def accepted (s : State) : Option Instr :=
  if rstDriven s then none
  else if cmdReady s then (presented s).map decode
  else none

/-- Whether the host is done with its act after this step: it keeps presenting an issued word until it is accepted (R130), and
waits for cmd_ready or dig_valid (R79). -/
def actDone (s : State) : Bool :=
  match hostAct s with
  | .issue _ => cmdReady s
  | .offer _ => true
  | .wait => true
  | .sample _ => true
  | .reset _ => true
  | .waitReady => cmdReady s
  | .waitDone => digValid s

/-- The outputs the host reads in this step: those of the state before it (R62). Outside DONE dig_out is a free byte (R190). -/
def sampled (s : State) : List Sample :=
  match hostAct s with
  | .issue _ => []
  | .offer _ => []
  | .wait => []
  | .sample sel =>
    [{ dig_sel := sel, cmd_ready := cmdReady s, dig_out := digOut (Config.digDraw s.host.draws sel) sel s,
       dig_valid := digValid s, status := statusPort s }]
  | .reset _ => []
  | .waitReady => []
  | .waitDone => []

/-- The host's side after this step. The draw counter advances in every step, so that no two reads share a draw (log 5). -/
def hostMoved (s : State) : State :=
  { s with
    host := {
      acts := if actDone s then s.host.acts.tail else s.host.acts
      samples := s.host.samples ++ sampled s
      draws := s.host.draws + 1 } }

/-- One step (R17, R57, R208): reset before everything; else the micro-step of a busy phase; else the accepted command, or, when
the host issues nothing, a step in which the core waits. DEDUCED: a busy core never stalls (R246; log 8). -/
def coreStep (s : State) : Answer :=
  if rstDriven s then .next (applyReset (hostMoved s))
  else if cmdReady s then
    match presented s with
    | some w => exec (decode w) (hostMoved s)
    | none => .next (hostMoved s)
  else .next (microStep (hostMoved s))

/-- The host presents this word next, before what it was going to do. -/
def presentWord (w : Word) (s : State) : State :=
  { s with host := { s.host with acts := .issue w :: s.host.acts } }

/-- The state in which the host presents the table word `w` of `nbits` bits next; unchanged when the number is no 12-bit word
(log 4, log 13). -/
def presentTableWord (nbits w : Nat) (s : State) : State :=
  match wordOfNat (tableValue nbits w) with
  | .ok word => presentWord word s
  | .error _ => s

end Sys2Proof.Machine
end

