-- ==== Sys2Proof/Machine/Step.lean ====
section
/-! DEFINITION. The step function of the machine and the placement of a command where the next step takes it. -/

namespace Sys2Proof.Machine

/-- One step: a reset, an accepted command, a micro-step, or a step in which the core waits (R17, R57). -/
def step (s : State) : Host.Outcome State Fault Refusal := Sys2Proof.Machine.coreStep s

/-- `s` with the table word `w` presented on the command channel, so that the next step in a ready phase accepts exactly it
(R130; log 4). -/
def State.withFetchWord (s : State) (nbits w : Nat) : State := Sys2Proof.Machine.presentTableWord nbits w s

end Sys2Proof.Machine
end

