-- ==== Sys2Proof/Machine/Assembler.lean ====
section
/-! DEFINITION. The textual form of host programs (R77 to R79, 30_encoding.md): the items, what each expands to on the command
channel, and the reading of a text into items (log 16). It sits outside the core: no step uses it. -/

namespace Sys2Proof.Machine

/-- One item of a program text (R77, R79). -/
inductive AsmItem where
  | nop
  | init
  | absorb (b : Byte)
  | finish
  /-- `.word`: any 12-bit word as it stands, reserved ones included. -/
  | word (w : Word)
  | absorbs (bs : List Byte)
  | absorbn (b : Byte) (n : Nat)
  | hash (bs : List Byte)
  | waitReady
  | waitDone
  | readDig
  | reset
deriving DecidableEq, Repr

/-- Why a text is refused. -/
inductive AsmError where
  /-- A byte outside 0..255 (R77). -/
  | byteRange (value : Nat)
  /-- A `.word` operand of more than 12 bits (R77). -/
  | wordRange (value : Nat)
  /-- A character with no ASCII code (R77). -/
  | notAscii (c : Char)
  /-- A line that is no item of R77 or R79. -/
  | badLine
deriving DecidableEq, Repr

/-- The host issues this command once cmd_ready = 1, with the word the assembler writes (R77, R78). -/
def issueCommand (i : Instr) : HostAct := .issue (encode i)

/-- `ABSORBS`: one ABSORB per character, first character first (R79). -/
def issueBytes (bs : List Byte) : List HostAct := bs.map fun b => issueCommand (.absorb b)

/-- `READDIG`: dig_out is read with dig_sel = 0, 1, ..., 15 in turn (R79). -/
def readDigActs : List HostAct := (List.range 16).map fun i => .sample (BitVec.ofNat 4 i)

/-- What the host does for an item (R77 to R79). -/
def expand : AsmItem → List HostAct
  | .nop => [issueCommand .nop]
  | .init => [issueCommand .init]
  | .absorb b => [issueCommand (.absorb b)]
  | .finish => [issueCommand .finish]
  | .word w => [.issue w]
  | .absorbs bs => issueBytes bs
  | .absorbn b n => issueBytes (List.replicate n b)
  | .hash bs => issueCommand .init :: (issueBytes bs ++ [issueCommand .finish])
  | .waitReady => [.waitReady]
  | .waitDone => [.waitDone]
  | .readDig => readDigActs
  | .reset => [.reset none]

/-- A program's acts, in line order (R77). -/
def expandAll (items : List AsmItem) : List HostAct := items.flatMap expand

/-- The lines of a text. -/
def splitLines : List Char → List Char → List (List Char)
  | line, [] => [line.reverse]
  | line, c :: t => if c = '\n' then line.reverse :: splitLines [] t else splitLines (c :: line) t

/-- The line up to its comment (R77). A `;` between quotes is a character, not a comment (log 16); `inText` holds between double
quotes. -/
def stripComment : Bool → List Char → List Char
  | _, [] => []
  | true, '"' :: t => '"' :: stripComment false t
  | true, c :: t => c :: stripComment true t
  | false, '\'' :: c :: '\'' :: t => '\'' :: c :: '\'' :: stripComment false t
  | false, '"' :: t => '"' :: stripComment true t
  | false, c :: t => if c = ';' then [] else c :: stripComment false t

def isBlank (c : Char) : Bool := decide (c = ' ') || decide (c = '\t') || decide (c = '\r')

/-- A line without the blanks at its two ends. -/
def trimBlanks (l : List Char) : List Char :=
  ((l.dropWhile isBlank).reverse.dropWhile isBlank).reverse

/-- The value of a hexadecimal digit. -/
def hexValue (c : Char) : Option Nat :=
  if 48 ≤ c.toNat ∧ c.toNat ≤ 57 then some (c.toNat - 48)
  else if 97 ≤ c.toNat ∧ c.toNat ≤ 102 then some (c.toNat - 87)
  else if 65 ≤ c.toNat ∧ c.toNat ≤ 70 then some (c.toNat - 55)
  else none

/-- The value of a digit string in a base; none for a string that is empty or holds another character. -/
def digits (base : Nat) (l : List Char) : Option Nat :=
  if l.isEmpty then none
  else l.foldl (fun acc c =>
    match acc, hexValue c with
    | some v, some d => if d < base then some (v * base + d) else none
    | _, _ => none) (some 0)

/-- A number: decimal, or hexadecimal with the prefix `0x` (R9). -/
def number : List Char → Option Nat
  | '0' :: 'x' :: t => digits 16 t
  | l => digits 10 l

/-- The ASCII code of a character (R77). -/
def asciiByte (c : Char) : Except AsmError Byte :=
  if c.toNat < 128 then .ok (BitVec.ofNat 8 c.toNat) else .error (.notAscii c)

/-- `<byte>`: a number 0..255, or one character in single quotes (R77). -/
def byteOperand : List Char → Except AsmError Byte
  | ['\'', c, '\''] => asciiByte c
  | l =>
    match number l with
    | some v => if v < 256 then .ok (BitVec.ofNat 8 v) else .error (.byteRange v)
    | none => .error .badLine

/-- `<hex12>`: a hexadecimal number of at most 12 bits (R77). -/
def wordOperand : List Char → Except AsmError Word
  | '0' :: 'x' :: t =>
    match digits 16 t with
    | some v => if v < 4096 then .ok (BitVec.ofNat 12 v) else .error (.wordRange v)
    | none => .error .badLine
  | _ => .error .badLine

/-- The ASCII codes of a list of characters. -/
def asciiBytes : List Char → Except AsmError (List Byte)
  | [] => .ok []
  | c :: t =>
    match asciiByte c, asciiBytes t with
    | .ok b, .ok bs => .ok (b :: bs)
    | .error e, _ => .error e
    | .ok _, .error e => .error e

/-- `"<chars>"` (R79). -/
def textOperand : List Char → Except AsmError (List Byte)
  | '"' :: t =>
    match t.reverse with
    | '"' :: r => if r.contains '"' then .error .badLine else asciiBytes r.reverse
    | _ => .error .badLine
  | _ => .error .badLine

/-- A byte operand and what follows the comma after it (`ABSORBN <byte>, <n>`, R79); none where no comma follows it. -/
def splitComma : List Char → Option (List Char × List Char)
  | '\'' :: c :: '\'' :: t =>
    match t.dropWhile isBlank with
    | ',' :: r => some (['\'', c, '\''], trimBlanks r)
    | _ => none
  | l =>
    match l.dropWhile (· ≠ ',') with
    | ',' :: r => some (trimBlanks (l.takeWhile (· ≠ ',')), trimBlanks r)
    | _ => none

/-- `<byte>, <n>` (R79). DESIGN CHOICE: R79 does not say how the count is written; it is a number of any size in either of the
two bases a byte has, decimal or hexadecimal with the prefix `0x` (log 16). -/
def absorbnOperands (l : List Char) : Except AsmError AsmItem :=
  match splitComma l with
  | none => .error .badLine
  | some (byte, count) =>
    match byteOperand byte, number count with
    | .ok b, some n => .ok (.absorbn b n)
    | .ok _, none => .error .badLine
    | .error e, _ => .error e

/-- An item without operands: nothing may follow its mnemonic. -/
def bare (item : AsmItem) (rest : List Char) : Except AsmError AsmItem :=
  if rest.isEmpty then .ok item else .error .badLine

/-- An item from its mnemonic, in upper case, and its operands (R77, R79). -/
def itemOf (mnemonic rest : List Char) : Except AsmError AsmItem :=
  if mnemonic = ['N', 'O', 'P'] then bare .nop rest
  else if mnemonic = ['I', 'N', 'I', 'T'] then bare .init rest
  else if mnemonic = ['A', 'B', 'S', 'O', 'R', 'B'] then (byteOperand rest).map .absorb
  else if mnemonic = ['F', 'I', 'N', 'I', 'S', 'H'] then bare .finish rest
  else if mnemonic = ['.', 'w', 'o', 'r', 'd'] then (wordOperand rest).map .word
  else if mnemonic = ['A', 'B', 'S', 'O', 'R', 'B', 'S'] then (textOperand rest).map .absorbs
  else if mnemonic = ['A', 'B', 'S', 'O', 'R', 'B', 'N'] then absorbnOperands rest
  else if mnemonic = ['H', 'A', 'S', 'H'] then (textOperand rest).map .hash
  else if mnemonic = ['W', 'A', 'I', 'T', 'R', 'E', 'A', 'D', 'Y'] then bare .waitReady rest
  else if mnemonic = ['W', 'A', 'I', 'T', 'D', 'O', 'N', 'E'] then bare .waitDone rest
  else if mnemonic = ['R', 'E', 'A', 'D', 'D', 'I', 'G'] then bare .readDig rest
  else if mnemonic = ['R', 'E', 'S', 'E', 'T'] then bare .reset rest
  else .error .badLine

/-- One line: nothing, or one item (R77). -/
def parseLine (line : List Char) : Except AsmError (Option AsmItem) :=
  let l := trimBlanks (stripComment false line)
  if l.isEmpty then .ok none
  else (itemOf (l.takeWhile (!isBlank ·)) (trimBlanks (l.dropWhile (!isBlank ·)))).map some

/-- The items of a list of lines, or the first error. -/
def parseLines : List (List Char) → Except AsmError (List AsmItem)
  | [] => .ok []
  | line :: t =>
    match parseLine line with
    | .error e => .error e
    | .ok none => parseLines t
    | .ok (some item) => (parseLines t).map (item :: ·)

/-- A program text to the host's acts (R77 to R79). -/
def assemble (text : List Char) : Except AsmError (List HostAct) :=
  (parseLines (splitLines [] text)).map expandAll

end Sys2Proof.Machine
end

