-- ==== Sys2Proof/Machine/Reference.lean ====
section
/-! DEFINITION. The reference function of 40_reference_function.md (R100 to R111), stage by stage and loop by loop. It is
normative: the core must produce its value for every message (R3). The table is an argument, as everywhere (R8). -/

namespace Sys2Proof.Machine

/-- P = 16 - (n mod 16), always in 1..16 (R102). -/
def paddingLength (n : Nat) : Nat := 16 - n % 16

/-- Stage 1: Pad(m) = m || rep(P, P) (R103). -/
def pad (m : List Byte) : List Byte :=
  m ++ List.replicate (paddingLength m.length) (BitVec.ofNat 8 (paddingLength m.length))

/-- The checksum accumulator and its carry, as stage 2 updates them. -/
structure Csum where
  C : Vector Byte 16
  L : Byte
deriving DecidableEq, Repr

/-- One byte of stage 2 (R105): C[j] := C[j] ^ S[c ^ L], then L := C[j]. -/
def checksumByte (cfg : Config) (a : Csum) (j : Fin 16) (c : Byte) : Csum :=
  let v := a.C[j.val] ^^^ tableEntry cfg (c ^^^ a.L)
  { C := a.C.set j.val v, L := v }

/-- Byte j of block i of a buffer whose length is a multiple of 16. Past the end, where no rule reads, it is 0 (DESIGN CHOICE: log 15). -/
def bufferByte (buf : List Byte) (i : Nat) (j : Fin 16) : Byte := buf.getD (16 * i + j.val) 0

/-- The inner loop of stage 2: the 16 bytes of block i (R105). -/
def checksumBlock (cfg : Config) (pb : List Byte) (a : Csum) (i : Nat) : Csum :=
  (List.finRange 16).foldl (fun a j => checksumByte cfg a j (bufferByte pb i j)) a

/-- Both loops of stage 2, with the carry kept across blocks (R105). -/
def checksumState (cfg : Config) (pb : List Byte) : Csum :=
  (List.range (pb.length / 16)).foldl (checksumBlock cfg pb) { C := Vector.replicate 16 0, L := 0 }

/-- Stage 2: Checksum(pb) (R105). -/
def checksum (cfg : Config) (pb : List Byte) : Vector Byte 16 := (checksumState cfg pb).C

/-- The checksum-augmented buffer ab = pb || Checksum(pb) (R106). -/
def augmented (cfg : Config) (m : List Byte) : List Byte := pad m ++ (checksum cfg (pad m)).toList

/-- The digest state and the running value, as stage 4 updates them. -/
structure Mix where
  X : Vector Byte 48
  T : Byte
deriving DecidableEq, Repr

/-- One position of one round of stage 4 (R108): X[k] := X[k] ^ S[T], then T := X[k]. -/
def mixByte (cfg : Config) (a : Mix) (k : Fin 48) : Mix :=
  let v := a.X[k.val] ^^^ tableEntry cfg a.T
  { X := a.X.set k.val v, T := v }

/-- Round j of stage 4: the 48 positions, then T := (T + j) mod 256 (R108). -/
def mixRound (cfg : Config) (a : Mix) (j : Fin 18) : Mix :=
  let b := (List.finRange 48).foldl (mixByte cfg) a
  { b with T := addRound b.T j }

/-- The first copy loop of stage 4: X[16 + i] := b[i] (R108). -/
def copyBlock (b : Vector Byte 16) (x : Vector Byte 48) : Vector Byte 48 :=
  (List.finRange 16).foldl (fun x i => x.set (region1 i).val b[i.val]) x

/-- The second copy loop of stage 4: X[32 + i] := X[16 + i] ^ X[i] (R108). -/
def xorRegions (x : Vector Byte 48) : Vector Byte 48 :=
  (List.finRange 16).foldl
    (fun x i => x.set (region2 i).val (x[(region1 i).val] ^^^ x[(region0 i).val])) x

/-- Compress(x, b): the two copy loops, T := 0, then 18 rounds (R108). -/
def compress (cfg : Config) (x : Vector Byte 48) (b : Vector Byte 16) : Vector Byte 48 :=
  ((List.finRange 18).foldl (mixRound cfg) { X := xorRegions (copyBlock b x), T := 0 }).X

/-- Block i of a buffer. -/
def bufferBlock (buf : List Byte) (i : Nat) : Vector Byte 16 := Vector.ofFn (bufferByte buf i)

/-- Stage 4: CompressAll(x, ab), every block in order (R110). -/
def compressAll (cfg : Config) (x : Vector Byte 48) (ab : List Byte) : Vector Byte 48 :=
  (List.range (ab.length / 16)).foldl (fun x i => compress cfg x (bufferBlock ab i)) x

/-- Digest(m) (R101, R111): region 0 after every block of the augmented buffer, from an all-zero state (R107). -/
def digest (cfg : Config) (m : List Byte) : Vector Byte 16 :=
  Vector.ofFn fun i => (compressAll cfg (Vector.replicate 48 0) (augmented cfg m))[(region0 i).val]

/-- One hex digit, lowercase (R53). -/
def hexDigit (v : BitVec 4) : Char :=
  if v.toNat < 10 then Char.ofNat (48 + v.toNat) else Char.ofNat (87 + v.toNat)

/-- The canonical text of a digest (R53): two lowercase hex digits a byte, most significant nibble first, byte 0 first, no
separators. -/
def hexText (d : Vector Byte 16) : List Char :=
  d.toList.flatMap fun b => [hexDigit (b.extractLsb' 4 4), hexDigit (b.extractLsb' 0 4)]

end Sys2Proof.Machine
end

