-- ==== Sys2Proof/Safety.lean ====
section
/-! DEFINITION. The terms claims are stated in: the invariants of R30 (10_state.md), runs, and the message of a run (R136,
41_commands.md). -/

namespace Sys2Proof.Machine

/-- The invariants of R30 as one predicate. Clauses (a) to (e) and (g) are the rule's; `cnt_range` is CNT's range of R21, and
`msg_aligned` and `csum_kind` are what makes the rest inductive: a message block's pass runs only after whole blocks, and DONE
is entered only from the checksum block. (R30 (f) is about a step, not a state: Obligations.) -/
structure Inv (s : State) : Prop where
  cnt_range : s.CNT ≤ s.cfg.cntMax
  a_counters : s.PHASE ≠ .mix → s.J = 0 ∧ s.K = 0
  b_pos : s.PHASE = .mix ∨ s.PHASE = .done ∨ s.PHASE = .idle → s.POS = 0
  c_pos : s.PHASE = .absorb → s.POS.val = s.CNT % 16
  d_pad : s.PHASE = .pad → 1 ≤ s.PADV.val ∧ 16 - s.PADV.val ≤ s.POS.val
  d_padv : s.PHASE = .pad ∨ s.PHASE = .feedc ∨ s.PHASE = .done ∨ (s.PHASE = .mix ∧ s.KIND ≠ .msg) →
    s.PADV.val = 16 - s.CNT % 16
  e_kind : s.PHASE = .idle ∨ s.PHASE = .absorb → s.KIND = .msg
  g_seed : s.PHASE = .mix → s.J = 0 → s.K = 0 → s.T = 0
  msg_aligned : s.PHASE = .mix → s.KIND = .msg → s.CNT % 16 = 0

/-- `n` steps of the machine: the host's own Core.run of this machine. -/
def run (n : Nat) (s : State) : Answer := Sys2Proof.core.run n s

/-- The commands a refused byte belongs to: ABSORB outside ABSORB phase or at the largest count (R202, R203). -/
def absorbRaises (s : State) : Bool := decide (s.PHASE ≠ .absorb) || cntFull s

/-- How one step changes the message of the run (R136): reset and power-up leave none; an accepted INIT opens an empty one; an
ABSORB accepted without an error appends its byte; nothing else changes it. -/
def messageAfter (s : State) (m : Option (List Byte)) : Option (List Byte) :=
  if rstDriven s then none
  else
    match accepted s with
    | some .init => some []
    | some (.absorb d) => if absorbRaises s then m else m.map (· ++ [d])
    | some .nop => m
    | some .finish => m
    | some (.reservedLow _) => m
    | some (.reservedHigh _) => m
    | none => m

/-- The message of the first `n` steps of the run from `s`, where `m` is the message before them (R136). -/
def messageOf : Nat → State → Option (List Byte) → Option (List Byte)
  | 0, _, m => m
  | n + 1, s, m =>
    match step s with
    | .next t => messageOf n t (messageAfter s m)
    | .fault _ => m
    | .refused _ => m

/-- The host drives no reset in its remaining acts. -/
def noReset (s : State) : Bool := s.host.acts.all fun a =>
  match a with
  | .issue _ => true
  | .offer _ => true
  | .wait => true
  | .sample _ => true
  | .reset _ => false
  | .waitReady => true
  | .waitDone => true

end Sys2Proof.Machine
end

