-- ==== Sys2Proof/Certificates/Slice0/Obligations.lean ====
section
/-! DEFINITION. The statements for the provers, from the numbered rules of spec/. `Sys2Proof.Machine.exec` is one command's
effect and `Sys2Proof.Machine.step` one step of the core at its ports; `hostMoved s` is `s` with only the host's side moved on. -/

open Sys2Proof Sys2Proof.Machine

/-! ## Encoding -/

/-- 30_encoding.md section 3 and 95_test_vectors.md section 2.5: words written out from the spec decode to what they stand for. -/
def Obligations.WordsOfTheSpecDecode : Prop :=
  decode 0b0000_00000000#12 = .nop ∧ decode 0b0000_11111111#12 = .nop ∧
  decode 0b0001_00000000#12 = .init ∧ decode 0b0001_11111111#12 = .init ∧
  decode 0b0010_01100001#12 = .absorb 0x61 ∧ decode 0b0010_11111111#12 = .absorb 0xff ∧
  decode 0b0011_00000000#12 = .finish ∧ decode 0b0011_10101011#12 = .finish ∧
  decode 0b0100_00000000#12 = .reservedLow 4 ∧ decode 0b0101_10101010#12 = .reservedLow 5 ∧
  decode 0b1000_00000000#12 = .reservedHigh 8 ∧ decode 0b1111_00000000#12 = .reservedHigh 15

/-- R73, R74: every one of the 4096 words decodes by op = w div 256 alone, and ABSORB takes the low byte as it stands. -/
def Obligations.DecodingFollowsTheOpcodeMap : Prop :=
  ∀ w : Word,
    (w.toNat / 256 = 0 → decode w = .nop) ∧
    (w.toNat / 256 = 1 → decode w = .init) ∧
    (w.toNat / 256 = 2 → decode w = .absorb (BitVec.ofNat 8 (w.toNat % 256))) ∧
    (w.toNat / 256 = 3 → decode w = .finish) ∧
    (4 ≤ w.toNat / 256 → w.toNat / 256 ≤ 7 → decode w = .reservedLow (BitVec.ofNat 4 (w.toNat / 256))) ∧
    (8 ≤ w.toNat / 256 → decode w = .reservedHigh (BitVec.ofNat 4 (w.toNat / 256)))

/-- Decoding the encoding of a well-formed command gives it back, with every operand at every value (R72 to R74). -/
def Obligations.DecodingAnEncodedCommandGivesItBack : Prop :=
  ∀ i : Instr, i.wellFormed = true → decode (encode i) = i ∧ decodeNat (encode i).toNat = .ok i ∧
    ∀ nbits, 12 ≤ nbits → decodeTableWord nbits (encode i).toNat = some i

/-- R72, R78: the data bits of every command but ABSORB are ignored. Encoding what a word decodes to keeps its op, and keeps its
data for ABSORB only; the decoded command is well-formed. -/
def Obligations.EncodingADecodedWordIsItsCanonicalForm : Prop :=
  ∀ w : Word, (decode w).wellFormed = true ∧
    (w.toNat / 256 = 2 → encode (decode w) = w) ∧
    (w.toNat / 256 ≠ 2 → (encode (decode w)).toNat = w.toNat / 256 * 256) ∧
    decode (encode (decode w)) = decode w

/-- opcode_table.json: each row's match and mask select exactly the words that decode to the row's command. -/
def Obligations.OpcodeTableRowsSelectTheirCommands : Prop :=
  ∀ w : Word,
    (w &&& 0xF00 = 0x000 ↔ decode w = .nop) ∧
    (w &&& 0xF00 = 0x100 ↔ decode w = .init) ∧
    (w &&& 0xF00 = 0x200 ↔ ∃ d, decode w = .absorb d) ∧
    (w &&& 0xF00 = 0x300 ↔ decode w = .finish) ∧
    (w &&& 0xC00 = 0x400 ↔ ∃ op, decode w = .reservedLow op) ∧
    (w &&& 0x800 = 0x800 ↔ ∃ op, decode w = .reservedHigh op)

/-- R78, R79: the words the assembler writes, and what HASH, ABSORBS, ABSORBN, READDIG and RESET expand to. -/
def Obligations.AssemblerFormsExpandAsTheSpecSays : Prop :=
  expand .nop = [.issue 0x000] ∧ expand .init = [.issue 0x100] ∧ expand .finish = [.issue 0x300] ∧
  (∀ b : Byte, expand (.absorb b) = [.issue (0x200 + b.setWidth 12)]) ∧
  (∀ w : Word, expand (.word w) = [.issue w]) ∧
  (∀ bs : List Byte, expand (.absorbs bs) = bs.map (fun b => .issue (0x200 + b.setWidth 12))) ∧
  (∀ (b : Byte) (n : Nat), expand (.absorbn b n) = List.replicate n (.issue (0x200 + b.setWidth 12))) ∧
  (∀ bs : List Byte, expand (.hash bs) = expand .init ++ expand (.absorbs bs) ++ expand .finish) ∧
  expand .waitReady = [.waitReady] ∧ expand .waitDone = [.waitDone] ∧
  expand .readDig = (List.range 16).map (fun i => .sample (BitVec.ofNat 4 i)) ∧
  expand .reset = [.reset none]

/-! ## The commands -/

/-- R131: in every ready phase NOP, with any data, answers with the state as it was. -/
def Obligations.NopHasNoEffect : Prop :=
  ∀ s : State, cmdReady s = true →
    exec .nop s = .next s ∧ ∀ w : Word, w.toNat / 256 = 0 → exec (decode w) s = .next s

/-- R133: INIT in IDLE, ABSORB or DONE, with any data, gives every register its initial value, clears the flags and opens the
message; status is then 0x04 and dig_valid 0. The parameters and the host's side are as before. -/
def Obligations.InitOpensAMessage : Prop :=
  ∀ s : State, cmdReady s = true →
    ∃ t, exec .init s = .next t ∧
      t = { s with
        X := Vector.replicate 48 0, C := Vector.replicate 16 0, CL := 0, T := 0, J := 0, K := 0, POS := 0, CNT := 0,
        PADV := 0, KIND := .msg, ERR_ILL := false, ERR_SEQ := false, ERR_LEN := false, PHASE := .absorb } ∧
      statusPort t = 0x04 ∧ digValid t = false ∧ ∀ w : Word, w.toNat / 256 = 1 → exec (decode w) s = .next t

/-- R236: nothing of what came before INIT survives it. Two ready states of one core with the same host give the same state.
Derived: the spec marks R236 as its own inference from R133. -/
def Obligations.NothingSurvivesInit : Prop :=
  ∀ s u : State, cmdReady s = true → cmdReady u = true → s.cfg = u.cfg → s.host = u.host →
    ∃ t, exec .init s = .next t ∧ exec .init u = .next t

/-- R135: ABSORB d in every ready phase, d the low byte of the word. The byte that completes a block leaves the core busy for
exactly the block's 864 micro-steps, if no reset comes. -/
def Obligations.AbsorbTakesAByte : Prop :=
  ∀ (s : State) (d : Byte), cmdReady s = true →
    let v := s.C[s.POS.val] ^^^ tableEntry s.cfg (d ^^^ s.CL)
    let x : Vector Byte 48 := (s.X.set (16 + s.POS.val) d).set (32 + s.POS.val) (d ^^^ s.X[s.POS.val])
    (∀ w : Word, w.toNat / 256 = 2 → exec (decode w) s = exec (.absorb (BitVec.ofNat 8 (w.toNat % 256))) s) ∧
    (s.PHASE ≠ .absorb → exec (.absorb d) s = .next { s with ERR_SEQ := true }) ∧
    (s.PHASE = .absorb → s.CNT = 2 ^ s.cfg.LENW - 1 → exec (.absorb d) s = .next { s with ERR_LEN := true }) ∧
    (s.PHASE = .absorb → s.CNT ≠ 2 ^ s.cfg.LENW - 1 → s.POS.val ≠ 15 →
      exec (.absorb d) s =
        .next { s with C := s.C.set s.POS.val v, CL := v, X := x, CNT := s.CNT + 1, POS := s.POS + 1 }) ∧
    (s.PHASE = .absorb → s.CNT ≠ 2 ^ s.cfg.LENW - 1 → s.POS.val = 15 →
      ∃ t, exec (.absorb d) s = .next t ∧
        t = { s with
          C := s.C.set s.POS.val v, CL := v, X := x, CNT := s.CNT + 1, POS := 0,
          PHASE := .mix, KIND := .msg, T := 0, J := 0, K := 0 } ∧
        (noReset s = true →
          (∃ u, run 864 t = .next u ∧ u.PHASE = .absorb) ∧ ∀ k u, k < 864 → run k t = .next u → cmdReady u = false))

/-- R137: FINISH in every ready phase, with any data. Where POS is CNT mod 16 (R30 (c)), PADV is the paddingLength of R102. The
core is then busy until DONE, if no reset comes: as long as a run has not reached DONE, cmd_ready is 0 and no command is accepted,
a second FINISH among them; in DONE a FINISH raises ERR_SEQ. -/
def Obligations.FinishLatchesThePaddingLength : Prop :=
  ∀ s : State, cmdReady s = true →
    (∀ w : Word, w.toNat / 256 = 3 → exec (decode w) s = exec .finish s) ∧
    (s.PHASE ≠ .absorb → exec .finish s = .next { s with ERR_SEQ := true }) ∧
    (s.PHASE = .absorb →
      ∃ t, exec .finish s = .next t ∧ t = { s with PADV := t.PADV, PHASE := .pad } ∧ t.PADV.val = 16 - s.POS.val ∧
        (s.POS.val = s.CNT % 16 → t.PADV.val = paddingLength s.CNT) ∧
        (noReset s = true → ∀ k u, run k t = .next u → (∀ j v, j ≤ k → run j t = .next v → v.PHASE ≠ .done) →
          cmdReady u = false ∧ accepted u = none))

/-- R139, R201: every word with op in 0x4..0xF, in every ready phase, sets ERR_ILL, which is status bit 4, and nothing else; so
do both constructors, whatever code they hold. -/
def Obligations.ReservedCodesRaiseErrIll : Prop :=
  ∀ s : State, cmdReady s = true →
    (∀ w : Word, 4 ≤ w.toNat / 256 → exec (decode w) s = .next { s with ERR_ILL := true }) ∧
    (∀ op : BitVec 4, exec (.reservedLow op) s = .next { s with ERR_ILL := true }) ∧
    (∀ op : BitVec 4, exec (.reservedHigh op) s = .next { s with ERR_ILL := true }) ∧
    (statusPort { s with ERR_ILL := true }).getLsbD 4 = true

/-- R202: ABSORB and FINISH in IDLE or DONE set ERR_SEQ, which is status bit 5, and nothing else. -/
def Obligations.OutOfPhaseCommandsRaiseErrSeq : Prop :=
  ∀ (s : State) (d : Byte), s.PHASE = .idle ∨ s.PHASE = .done →
    exec (.absorb d) s = .next { s with ERR_SEQ := true } ∧ exec .finish s = .next { s with ERR_SEQ := true } ∧
    (statusPort { s with ERR_SEQ := true }).getLsbD 5 = true

/-- R130, R132: in PAD, MIX and FEEDC every command is held: it changes nothing.
That exec answers the state as it was there is the model's choice (log 10). -/
def Obligations.BusyPhasesHoldEveryCommand : Prop :=
  ∀ (i : Instr) (s : State), s.PHASE = .pad ∨ s.PHASE = .mix ∨ s.PHASE = .feedc → exec i s = .next s

/-- R200, R206, R207: for every word in every ready phase, the first check that fails decides the one flag that is set, and
nothing else changes (so other flags stay, and the core stays ready); where none fails, INIT clears the flags and every other
command leaves them. -/
def Obligations.TheFirstFailedCheckDecidesTheFlag : Prop :=
  ∀ (s : State) (w : Word), cmdReady s = true →
    (4 ≤ w.toNat / 256 → exec (decode w) s = .next { s with ERR_ILL := true }) ∧
    (2 ≤ w.toNat / 256 → w.toNat / 256 ≤ 3 → s.PHASE ≠ .absorb → exec (decode w) s = .next { s with ERR_SEQ := true }) ∧
    (w.toNat / 256 = 2 → s.PHASE = .absorb → s.CNT = 2 ^ s.cfg.LENW - 1 →
      exec (decode w) s = .next { s with ERR_LEN := true }) ∧
    (w.toNat / 256 < 4 → (2 ≤ w.toNat / 256 → s.PHASE = .absorb) →
      (w.toNat / 256 = 2 → s.CNT ≠ 2 ^ s.cfg.LENW - 1) →
      ∃ t, exec (decode w) s = .next t ∧
        (t.ERR_ILL, t.ERR_SEQ, t.ERR_LEN) =
          if w.toNat / 256 = 1 then (false, false, false) else (s.ERR_ILL, s.ERR_SEQ, s.ERR_LEN))

/-- The frame of ABSORB, the one command that stores: region 0 and every byte of X but X[16+POS] and X[32+POS], every byte of C
but C[POS], PADV, ERR_ILL, the parameters and the host's side; and unless it completes a block also T, J, K, PHASE, KIND. -/
def Obligations.AbsorbFrame : Prop :=
  ∀ (s t : State) (d : Byte), exec (.absorb d) s = .next t →
    (∀ i : Fin 48, i.val ≠ 16 + s.POS.val → i.val ≠ 32 + s.POS.val → t.X[i.val] = s.X[i.val]) ∧
    (∀ i : Fin 16, i ≠ s.POS → t.C[i.val] = s.C[i.val]) ∧
    t.PADV = s.PADV ∧ t.ERR_ILL = s.ERR_ILL ∧ t.cfg = s.cfg ∧ t.host = s.host ∧
    (s.POS.val ≠ 15 → t.T = s.T ∧ t.J = s.J ∧ t.K = s.K ∧ t.PHASE = s.PHASE ∧ t.KIND = s.KIND)

/-- The frame of the commands that store no byte: NOP, FINISH and the reserved codes leave X, C, CL, T, POS, CNT, J, K, KIND,
ERR_LEN, the parameters and the host's side; only FINISH changes PADV, PHASE or ERR_SEQ, only a reserved code ERR_ILL. -/
def Obligations.NonStoringCommandsFrame : Prop :=
  ∀ (i : Instr) (s t : State),
    (i = .nop ∨ i = .finish ∨ (∃ op, i = .reservedLow op) ∨ (∃ op, i = .reservedHigh op)) → exec i s = .next t →
    (∀ j : Fin 48, t.X[j.val] = s.X[j.val]) ∧ (∀ j : Fin 16, t.C[j.val] = s.C[j.val]) ∧
    t.CL = s.CL ∧ t.T = s.T ∧ t.POS = s.POS ∧ t.CNT = s.CNT ∧ t.J = s.J ∧ t.K = s.K ∧ t.KIND = s.KIND ∧
    t.ERR_LEN = s.ERR_LEN ∧ t.cfg = s.cfg ∧ t.host = s.host ∧
    (i ≠ .finish → t.PADV = s.PADV ∧ t.PHASE = s.PHASE ∧ t.ERR_SEQ = s.ERR_SEQ) ∧
    (i = .nop ∨ i = .finish → t.ERR_ILL = s.ERR_ILL)

/-! ## One step at the ports -/

/-- R130 and the model's own names: where cmd_valid = 1, cmd_ready = 1 and rst = 0, the step is exec of the decoded word on the
state with the host's side moved on, and nothing else is moved. `withFetchWord` presents a table word so that the very next step
of a ready state runs it.
The host's acts and withFetchWord are the model's choice (log 3, log 4). -/
def Obligations.AStepRunsTheDecodedCommand : Prop :=
  (∀ (s : State) (w : Word), presented s = some w → cmdReady s = true → rstDriven s = false →
    accepted s = some (decode w) ∧ step s = exec (decode w) (hostMoved s) ∧
    hostMoved s = { s with host := (hostMoved s).host }) ∧
  (∀ (s : State) (w : Word) (nbits : Nat), cmdReady s = true → 12 ≤ nbits →
    step (s.withFetchWord nbits w.toNat) = exec (decode w) (hostMoved (s.withFetchWord nbits w.toNat)) ∧
    hostMoved (s.withFetchWord nbits w.toNat) = { s with host := (hostMoved (s.withFetchWord nbits w.toNat)).host })

/-- R243: every step answers a next state; where the host issues nothing to a ready core, the core waits; in a busy phase
exactly the phase's micro-step happens and no command is accepted.
Derived: the spec marks R243 as its own inference; the host's side is the model's choice (log 3). -/
def Obligations.EveryStepCompletes : Prop :=
  ∀ s : State,
    (∃ t, step s = .next t) ∧
    (rstDriven s = false → cmdReady s = true → presented s = none →
      step s = .next { s with host := (hostMoved s).host }) ∧
    (rstDriven s = false → cmdReady s = false → accepted s = none ∧
      step s = .next (if s.PHASE = .pad then padStep (hostMoved s)
        else if s.PHASE = .mix then mixStep (hostMoved s) else feedcStep (hostMoved s)))

/-- R130, R237: a command issued in a busy phase stays presented, neither lost nor queued, and one only offered is withdrawn; in
a ready phase both are taken. A reset, with or without a command presented, lasts one step.
The host's acts are the model's choice (log 3). -/
def Obligations.AHeldCommandStaysPresented : Prop :=
  ∀ (s : State) (w : Word) (rest : List HostAct),
    (s.host.acts = .issue w :: rest → cmdReady s = false →
      accepted s = none ∧ ∃ t, step s = .next t ∧ t.host.acts = .issue w :: rest) ∧
    (s.host.acts = .offer w :: rest → cmdReady s = false →
      accepted s = none ∧ ∃ t, step s = .next t ∧ t.host.acts = rest) ∧
    (s.host.acts = .issue w :: rest ∨ s.host.acts = .offer w :: rest → cmdReady s = true →
      accepted s = some (decode w) ∧ ∃ t, step s = .next t ∧ t.host.acts = rest) ∧
    (∀ p : Option Word, s.host.acts = .reset p :: rest →
      accepted s = none ∧ ∃ t, step s = .next t ∧ t.host.acts = rest)

/-- R230, R208: a step with rst = 1 sets every register to its reset value from any phase, whatever is presented with it, accepts
no command and leaves the table alone; then status = 0x00, dig_valid = 0, cmd_ready = 1. -/
def Obligations.ResetFromEveryPhase : Prop :=
  ∀ (s : State) (p : Option Word) (rest : List HostAct), s.host.acts = .reset p :: rest →
    accepted s = none ∧
    ∃ t, step s = .next t ∧
      t = { s with
        X := Vector.replicate 48 0, C := Vector.replicate 16 0, CL := 0, T := 0, POS := 0, CNT := 0, PADV := 0, J := 0,
        K := 0, KIND := .msg, ERR_ILL := false, ERR_SEQ := false, ERR_LEN := false, PHASE := .idle, host := t.host } ∧
      statusPort t = 0x00 ∧ digValid t = false ∧ cmdReady t = true

/-- R38: the state after reset holds the reset value of every register; a step with rst = 1 gives those values and leaves S, and
INIT gives them but for PHASE = ABSORB. -/
def Obligations.ResetStateHoldsTheResetValues : Prop :=
  ((∀ i : Fin 48, State.reset.X[i.val] = 0) ∧ (∀ i : Fin 16, State.reset.C[i.val] = 0) ∧
    State.reset.CL = 0 ∧ State.reset.T = 0 ∧ State.reset.POS = 0 ∧ State.reset.CNT = 0 ∧ State.reset.PADV = 0 ∧
    State.reset.J = 0 ∧ State.reset.K = 0 ∧ State.reset.PHASE = .idle ∧ State.reset.KIND = .msg ∧
    State.reset.ERR_ILL = false ∧ State.reset.ERR_SEQ = false ∧ State.reset.ERR_LEN = false) ∧
  (∀ s : State, rstDriven s = true →
    ∃ t, step s = .next t ∧ t = { State.reset with cfg := s.cfg, host := t.host } ∧
      ∀ v : Byte, tableEntry t.cfg v = tableEntry s.cfg v) ∧
  (∀ s : State, cmdReady s = true →
    exec .init s = .next { State.reset with cfg := s.cfg, host := s.host, PHASE := .absorb })

/-! ## The micro-steps -/

/-- R152: one step of PAD phase. The padding byte enters C and X at POS; CNT and the flags are as before. -/
def Obligations.PadStepLoadsThePaddingByte : Prop :=
  ∀ s : State, s.PHASE = .pad → rstDriven s = false →
    let b : Byte := BitVec.ofNat 8 s.PADV.val
    let v := s.C[s.POS.val] ^^^ tableEntry s.cfg (b ^^^ s.CL)
    let x : Vector Byte 48 := (s.X.set (16 + s.POS.val) b).set (32 + s.POS.val) (b ^^^ s.X[s.POS.val])
    (s.POS.val ≠ 15 →
      step s = .next { hostMoved s with C := s.C.set s.POS.val v, CL := v, X := x, POS := s.POS + 1 }) ∧
    (s.POS.val = 15 →
      step s = .next { hostMoved s with
        C := s.C.set s.POS.val v, CL := v, X := x, POS := 0, PHASE := .mix, KIND := .pad, T := 0, J := 0, K := 0 })

/-- R175, R176: one step of MIX phase. -/
def Obligations.MixStepMixesOnePosition : Prop :=
  ∀ s : State, s.PHASE = .mix → rstDriven s = false →
    let v := s.X[s.K.val] ^^^ tableEntry s.cfg s.T
    (s.K.val ≠ 47 → step s = .next { hostMoved s with X := s.X.set s.K.val v, T := v, K := s.K + 1 }) ∧
    (s.K.val = 47 → s.J.val ≠ 17 →
      step s = .next { hostMoved s with
        X := s.X.set s.K.val v, T := BitVec.ofNat 8 ((v.toNat + s.J.val) % 256), K := 0, J := s.J + 1 }) ∧
    (s.K.val = 47 → s.J.val = 17 →
      step s = .next { hostMoved s with
        X := s.X.set s.K.val v, T := BitVec.ofNat 8 ((v.toNat + s.J.val) % 256), K := 0, J := 0,
        PHASE := match s.KIND with
          | .msg => .absorb
          | .pad => .feedc
          | .csum => .done })

/-- R178: one step of FEEDC phase. C and CL are as before. Entered with POS = 0 the phase lasts exactly 16 steps. -/
def Obligations.FeedcStepLoadsAChecksumByte : Prop :=
  ∀ s : State, s.PHASE = .feedc → rstDriven s = false →
    let c := s.C[s.POS.val]
    let x : Vector Byte 48 := (s.X.set (16 + s.POS.val) c).set (32 + s.POS.val) (c ^^^ s.X[s.POS.val])
    (s.POS.val ≠ 15 → step s = .next { hostMoved s with X := x, POS := s.POS + 1 }) ∧
    (s.POS.val = 15 →
      step s = .next { hostMoved s with X := x, POS := 0, PHASE := .mix, KIND := .csum, T := 0, J := 0, K := 0 }) ∧
    (noReset s = true → s.POS.val = 0 →
      (∃ t, run 16 s = .next t ∧ t.PHASE = .mix ∧ t.KIND = .csum ∧ t.C = s.C ∧ t.CL = s.CL) ∧
      ∀ k u, k < 16 → run k s = .next u → u.PHASE = .feedc)

/-! ## The outputs -/

/-- R193, with cmd_ready of R130 and dig_valid of R191: every bit of the status port in every state. -/
def Obligations.StatusPortBits : Prop :=
  ∀ s : State,
    (statusPort s).getLsbD 0 = decide (s.PHASE = .pad ∨ s.PHASE = .mix ∨ s.PHASE = .feedc) ∧
    (statusPort s).getLsbD 0 = !cmdReady s ∧
    (statusPort s).getLsbD 1 = decide (s.PHASE = .done) ∧
    (statusPort s).getLsbD 1 = digValid s ∧
    (statusPort s).getLsbD 2 = decide (s.PHASE = .absorb ∨ s.PHASE = .pad ∨ s.PHASE = .mix ∨ s.PHASE = .feedc) ∧
    (statusPort s).getLsbD 3 = false ∧
    (statusPort s).getLsbD 4 = s.ERR_ILL ∧
    (statusPort s).getLsbD 5 = s.ERR_SEQ ∧
    (statusPort s).getLsbD 6 = s.ERR_LEN ∧
    (statusPort s).getLsbD 7 = false ∧
    statusPort State.reset = 0x00

/-- R190, R53: in DONE every select shows its byte of region 0; in any other phase dig_out is the free byte. -/
def Obligations.DigestReadOut : Prop :=
  ∀ (s : State) (sel : BitVec 4) (draw : Byte),
    (s.PHASE = .done → digOut draw sel s = s.X[sel.toNat]'(Nat.lt_of_lt_of_le sel.isLt (by decide))) ∧
    (s.PHASE ≠ .done → digOut draw sel s = draw)

/-- R58, R62: a step in which the host reads the outputs ends as one in which it does nothing, but for the host's own record. The
record holds the outputs of the state before the step; dig_out is that of R190 for some draw.
The host's acts, the record and the draw are the model's choice (log 3, log 5, log 6). -/
def Obligations.ReadingTheOutputsChangesNoState : Prop :=
  ∀ (s : State) (sel : BitVec 4) (rest : List HostAct), s.host.acts = .sample sel :: rest →
    ∃ t u draw,
      step s = .next t ∧ step { s with host := { s.host with acts := .wait :: rest } } = .next u ∧
      t = { u with host := t.host } ∧ t.host.acts = rest ∧
      t.host.samples = s.host.samples ++
        [{ dig_sel := sel, cmd_ready := cmdReady s, dig_out := digOut draw sel s, dig_valid := digValid s,
           status := statusPort s }] ∧
      (cmdReady s = true → t = { s with host := t.host })

/-- R195: in DONE, unless INIT is accepted or rst = 1, the step keeps PHASE and every byte of X, so every select keeps its digest
byte; an accepted INIT clears X.
Derived: the spec marks R195 as its own inference from R131 to R139 and R190. -/
def Obligations.TheDigestIsHeld : Prop :=
  ∀ s t : State, s.PHASE = .done → rstDriven s = false → step s = .next t →
    (accepted s ≠ some .init → t.PHASE = .done ∧ t.X = s.X ∧ ∀ d e sel, digOut d sel t = digOut e sel s) ∧
    (accepted s = some .init → t.PHASE = .absorb ∧ digValid t = false ∧ ∀ i : Fin 48, t.X[i.val] = 0)

/-! ## Rules about the whole machine -/

/-- R29: every change of PHASE, and no other. KIND on entry to MIX is the block loaded. -/
def Obligations.PhaseChangesAsTheTableSays : Prop :=
  ∀ s t : State, s.CNT ≤ 2 ^ s.cfg.LENW - 1 → step s = .next t →
    t.PHASE =
      (if rstDriven s then .idle
      else match accepted s with
        | some .nop => s.PHASE
        | some .init => .absorb
        | some (.absorb _) => if s.PHASE = .absorb ∧ s.CNT < 2 ^ s.cfg.LENW - 1 ∧ s.POS.val = 15 then .mix else s.PHASE
        | some .finish => if s.PHASE = .absorb then .pad else s.PHASE
        | some (.reservedLow _) => s.PHASE
        | some (.reservedHigh _) => s.PHASE
        | none =>
          match s.PHASE with
          | .idle => .idle
          | .absorb => .absorb
          | .pad => if s.POS.val = 15 then .mix else .pad
          | .mix =>
            if s.J.val = 17 ∧ s.K.val = 47 then
              match s.KIND with
              | .msg => .absorb
              | .pad => .feedc
              | .csum => .done
            else .mix
          | .feedc => if s.POS.val = 15 then .mix else .feedc
          | .done => .done) ∧
    (t.PHASE = .mix → s.PHASE ≠ .mix →
      t.KIND = if s.PHASE = .absorb then .msg else if s.PHASE = .pad then .pad else .csum)

/-- R32: no step writes the table, or the width of CNT. -/
def Obligations.TheTableIsNeverWritten : Prop :=
  ∀ s t : State, step s = .next t → (∀ v : Byte, tableEntry t.cfg v = tableEntry s.cfg v) ∧ t.cfg = s.cfg

/-- R34: every table a core can be built with is a bijection on the bytes. -/
def Obligations.TheTableIsABijection : Prop :=
  ∀ cfg : Config, Function.Bijective (tableEntry cfg)

/-- R24, R171: unless MIX_STEP runs, INIT is accepted or rst = 1, a step leaves region 0.
Derived: the spec marks R171 as its own inference. -/
def Obligations.RegionZeroIsChangedOnlyByMixing : Prop :=
  ∀ s t : State, step s = .next t → s.PHASE ≠ .mix → rstDriven s = false → accepted s ≠ some .init →
    ∀ i : Fin 16, t.X[i.val] = s.X[i.val]

/-- R26, R156, R30 (f): a step changes C or CL only by a reset, an accepted INIT, an ABSORB accepted without an error, or a
PAD_STEP; so neither changes in MIX, FEEDC or DONE while no message is opened or reset. -/
def Obligations.TheChecksumTakesOnlyMessageAndPaddingBytes : Prop :=
  ∀ s t : State, step s = .next t → rstDriven s = false → accepted s ≠ some .init → s.PHASE ≠ .pad →
    (∀ d, accepted s = some (.absorb d) → s.PHASE ≠ .absorb ∨ s.CNT = 2 ^ s.cfg.LENW - 1) →
    t.C = s.C ∧ t.CL = s.CL

/-- R21, R136, R154: CNT counts the bytes accepted without an error since INIT and nothing else; a padding byte does not count. -/
def Obligations.CntCountsTheMessageBytes : Prop :=
  ∀ s t : State, step s = .next t →
    t.CNT =
      if rstDriven s ∨ accepted s = some .init then 0
      else if (∃ d, accepted s = some (.absorb d)) ∧ s.PHASE = .absorb ∧ s.CNT ≠ 2 ^ s.cfg.LENW - 1 then s.CNT + 1
      else s.CNT

/-- R211, R35: only an accepted INIT and reset clear an error flag. -/
def Obligations.OnlyInitAndResetClearAFlag : Prop :=
  ∀ s t : State, step s = .next t → rstDriven s = false → accepted s ≠ some .init →
    (s.ERR_ILL = true → t.ERR_ILL = true) ∧ (s.ERR_SEQ = true → t.ERR_SEQ = true) ∧
    (s.ERR_LEN = true → t.ERR_LEN = true)

/-- R204: NOP, INIT, the micro-steps, reset, a read and a step in which the core waits set no error flag. -/
def Obligations.WhatNeverRaises : Prop :=
  ∀ s t : State, step s = .next t → (accepted s = none ∨ accepted s = some .nop ∨ accepted s = some .init) →
    (t.ERR_ILL = true → s.ERR_ILL = true) ∧ (t.ERR_SEQ = true → s.ERR_SEQ = true) ∧
    (t.ERR_LEN = true → s.ERR_LEN = true)

/-- R181, R174: a pass starts only with the step that loads position 15, with the byte that step takes (an ABSORB's, PADV or
C[15]) in X[31] and its XOR with X[15] in X[47]; no other byte of X changes in that step, and the pass starts at round 0,
position 0 with T = 0 and POS back at 0.
Derived: the spec marks R181 as its own inference. -/
def Obligations.APassStartsOnlyByLoadingPositionFifteen : Prop :=
  ∀ s t : State, step s = .next t → s.PHASE ≠ .mix → t.PHASE = .mix →
    s.POS.val = 15 ∧ t.POS = 0 ∧ t.T = 0 ∧ t.J = 0 ∧ t.K = 0 ∧
    (∃ v : Byte,
      ((s.PHASE = .absorb ∧ accepted s = some (.absorb v)) ∨ (s.PHASE = .pad ∧ v = BitVec.ofNat 8 s.PADV.val) ∨
        (s.PHASE = .feedc ∧ v = s.C[15])) ∧
      t.X[31] = v ∧ t.X[47] = v ^^^ s.X[15]) ∧
    ∀ i : Fin 48, i.val ≠ 31 → i.val ≠ 47 → t.X[i.val] = s.X[i.val]

/-! ## Invariants -/

/-- R30: the reset state meets the invariants.
Derived: the spec marks R30 as its own inference; cnt_range, msg_aligned and R30 (e)'s form are those of Inv. -/
def Obligations.ResetMeetsTheInvariants : Prop := Inv State.reset

/-- R30: every step from every state that meets the invariants ends in one that meets them.
Derived: the spec marks R30 as its own inference; msg_aligned is the model's, to make the rest inductive. -/
def Obligations.EveryStepKeepsTheInvariants : Prop :=
  ∀ s t : State, Inv s → step s = .next t → Inv t

/-! ## Progress -/

/-- R244, R138, R243: with no reset, every busy phase ends within 1760 micro-steps; a message block's pass takes exactly 864, and
from PAD phase at position p the core is in DONE after exactly 1760 - p and busy until then.
Derived: the spec marks R244 as its own inference; that a busy core never stalls is log 8. -/
def Obligations.BusyPhasesEnd : Prop :=
  ∀ s : State, noReset s = true →
    (cmdReady s = false →
      ∃ n t, n ≤ 1760 ∧ run n s = .next t ∧ (t.PHASE = .absorb ∨ t.PHASE = .done)) ∧
    (s.PHASE = .mix → s.KIND = .msg → s.J = 0 → s.K = 0 →
      (∃ t, run 864 s = .next t ∧ t.PHASE = .absorb) ∧
      ∀ k u, k < 864 → run k s = .next u → cmdReady u = false) ∧
    (s.PHASE = .pad →
      (∃ t, run (1760 - s.POS.val) s = .next t ∧ t.PHASE = .done) ∧
      ∀ k u, k < 1760 - s.POS.val → run k s = .next u → cmdReady u = false)

/-- R153: PAD phase entered at position 16 - PADV lasts exactly PADV steps, and leaves the byte PADV in positions 16 - PADV to 15
of the block and the earlier positions as they were.
Derived: the spec marks R153 as its own inference. -/
def Obligations.PadPhaseFillsTheBlock : Prop :=
  ∀ s : State, noReset s = true → s.PHASE = .pad → 1 ≤ s.PADV.val → s.POS.val = 16 - s.PADV.val →
    ∃ t, run s.PADV.val s = .next t ∧ t.PHASE = .mix ∧ t.KIND = .pad ∧ t.CNT = s.CNT ∧
      (∀ i : Fin 16, 16 - s.PADV.val ≤ i.val → t.X[16 + i.val] = BitVec.ofNat 8 s.PADV.val) ∧
      (∀ i : Fin 16, i.val < 16 - s.PADV.val → t.X[16 + i.val] = s.X[16 + i.val]) ∧
      ∀ k u, k < s.PADV.val → run k s = .next u → u.PHASE = .pad

/-! ## The reference function -/

/-- R102: the padding length is 16 - (n mod 16), in 1..16, 16 (never 0) at a multiple of 16, 1 at 15 above one; the document's three examples. -/
def Obligations.PaddingLengthIsOneToSixteen : Prop :=
  (∀ n, paddingLength n = 16 - n % 16 ∧ 1 ≤ paddingLength n ∧ paddingLength n ≤ 16 ∧ (n % 16 = 0 → paddingLength n = 16) ∧
    (n % 16 = 15 → paddingLength n = 1)) ∧
  paddingLength 16 = 16 ∧ paddingLength 17 = 15 ∧ paddingLength 0 = 16

/-- R103, R104: Pad keeps the message, fills to a multiple of 16 with the byte P, and never skips the padding. -/
def Obligations.PadFillsToAMultipleOfSixteen : Prop :=
  ∀ m : List Byte,
    (pad m).length = m.length + paddingLength m.length ∧ (pad m).length % 16 = 0 ∧ 16 ≤ (pad m).length ∧
    (pad m).take m.length = m ∧
    (∀ i, m.length ≤ i → i < (pad m).length → (pad m).getD i 0 = BitVec.ofNat 8 (paddingLength m.length)) ∧
    pad [] = List.replicate 16 0x10

/-- R106: the augmented buffer is the padded one and then its checksum: a whole number of blocks, floor(len/16) + 2 of them.
Derived: the spec marks the number of blocks as its own inference. -/
def Obligations.TheAugmentedBufferHasItsBlocks : Prop :=
  ∀ (cfg : Config) (m : List Byte),
    (augmented cfg m).take (m.length + paddingLength m.length) = pad m ∧
    (augmented cfg m).drop (m.length + paddingLength m.length) = (checksum cfg (pad m)).toList ∧
    (augmented cfg m).length = m.length + paddingLength m.length + 16 ∧ (augmented cfg m).length % 16 = 0 ∧
    (augmented cfg m).length / 16 = m.length / 16 + 2

/-- R112: Compress depends on its input state only through region 0.
Derived: the spec marks R112 as its own inference from R108. -/
def Obligations.CompressReadsOnlyRegionZero : Prop :=
  ∀ (cfg : Config) (x y : Vector Byte 48) (b : Vector Byte 16),
    (∀ i : Fin 16, x[i.val] = y[i.val]) → compress cfg x b = compress cfg y b

/-! ## The core computes the reference function -/

/-- R180: from the start of a pass over a loaded block b, with region 2 the XOR of regions 0 and 1 (R171), 864 steps without a
reset leave X = Compress(x', b) for every x' with the same region 0, and the core in the phase that follows.
Derived: the spec marks R180 as its own inference. -/
def Obligations.APassIsCompress : Prop :=
  ∀ (s : State) (x : Vector Byte 48) (b : Vector Byte 16), noReset s = true →
    s.PHASE = .mix → s.J = 0 → s.K = 0 → s.T = 0 →
    (∀ i : Fin 16, x[i.val] = s.X[i.val]) → (∀ i : Fin 16, s.X[16 + i.val] = b[i.val]) →
    (∀ i : Fin 16, s.X[32 + i.val] = s.X[16 + i.val] ^^^ s.X[i.val]) →
    ∃ t, run 864 s = .next t ∧ t.X = compress s.cfg x b ∧ t.J = 0 ∧ t.K = 0 ∧ t.KIND = s.KIND ∧
      t.PHASE = match s.KIND with
        | .msg => .absorb
        | .pad => .feedc
        | .csum => .done

/-- R160: in every run, whatever state it starts from, once INIT has opened a message and the padding engine is through with it,
C is the reference checksum of the padded message, until the next INIT or reset.
Derived: the spec marks R160 as its own inference. -/
def Obligations.TheChecksumIsThatOfThePaddedMessage : Prop :=
  ∀ (s t : State) (n : Nat) (m : List Byte), run n s = .next t → messageOf n s none = some m →
    (t.PHASE = .mix ∧ t.KIND ≠ .msg) ∨ t.PHASE = .feedc ∨ t.PHASE = .done →
    t.C = checksum t.cfg (pad m)

/-- R182, R192: in every run, whatever state it starts from, whenever dig_valid = 1 for a message opened by an INIT of that run,
region 0 is Digest(m) for the message m of R136, and every select reads its byte of it.
Derived: the spec marks R182 and R192 as its own inferences. -/
def Obligations.TheDigestIsThatOfTheMessage : Prop :=
  ∀ (s t : State) (n : Nat) (m : List Byte), run n s = .next t → messageOf n s none = some m → digValid t = true →
    (∀ i : Fin 16, t.X[i.val] = (digest t.cfg m)[i.val]) ∧
    ∀ (sel : BitVec 4) (draw : Byte), digOut draw sel t = (digest t.cfg m)[sel.toNat]'sel.isLt

/-- R245, R235: from any ready state, a host that issues INIT, the bytes of a message that CNT can count, and FINISH, and nothing
else, finds the digest of that message with no flag set after exactly n + 2 accepted commands and 864 * (n div 16) + 1760 -
(n mod 16) micro-steps, and in no earlier step.
Derived: the spec marks R245 as its own inference; the host's acts are the model's choice (log 3). -/
def Obligations.AWholeMessageIsHashed : Prop :=
  ∀ (s : State) (m : List Byte), cmdReady s = true → m.length ≤ 2 ^ s.cfg.LENW - 1 → s.host.acts = expand (.hash m) →
    let steps := (m.length + 2) + (864 * (m.length / 16) + 1760 - m.length % 16)
    (∃ t, run steps s = .next t ∧ t.PHASE = .done ∧ t.host.acts = [] ∧ t.CNT = m.length ∧ t.cfg = s.cfg ∧
      statusPort t = 0x02 ∧ ∀ i : Fin 16, t.X[i.val] = (digest s.cfg m)[i.val]) ∧
    ∀ k u, 0 < k → k < steps → run k s = .next u → digValid u = false

/-! ## What follows FINISH -/

/-- R138, R244: FINISH accepted in ABSORB at POS = p leaves the core busy, with every command held, for exactly 1760 - p
micro-steps, if no reset comes; it is then in DONE, where FINISH raises ERR_SEQ.
Derived: the spec marks R138 and R244 as its own inferences; that a busy core never stalls is log 8, and that exec answers the
state as it was in a busy phase is the model's choice (log 10). -/
def Obligations.AfterFinishTheCoreIsBusyUntilDone : Prop :=
  ∀ s : State, s.PHASE = .absorb → noReset s = true →
    ∃ t, exec .finish s = .next t ∧
      (∃ u, run (1760 - s.POS.val) t = .next u ∧ u.PHASE = .done ∧ exec .finish u = .next { u with ERR_SEQ := true }) ∧
      ∀ k u, k < 1760 - s.POS.val → run k t = .next u → cmdReady u = false ∧ ∀ i, exec i u = .next u
end

