-- ==== Sys2Proof/Laws/Decode.lean ====
section
/-! SUPPORT. The two fields of a command word as numbers (R72, 30_encoding.md), the fields of an encoded command, and everything
`decode` can answer (R73, R74). -/

namespace Sys2Proof

theorem opField_toNat (w : Word) : (opField w).toNat = w.toNat / 256 := by
  have := w.isLt
  simp [opField, BitVec.extractLsb'_toNat, Nat.shiftRight_eq_div_pow]
  omega

theorem dataField_toNat (w : Word) : (dataField w).toNat = w.toNat % 256 := by
  simp [dataField, BitVec.extractLsb'_toNat]

theorem encode_toNat (i : Instr) : (encode i).toNat = (opOf i).toNat * 256 + (dataOf i).toNat := by
  show (opOf i ++ dataOf i : BitVec (4 + 8)).toNat = _
  rw [BitVec.toNat_append, ← Nat.shiftLeft_add_eq_or_of_lt (dataOf i).isLt, Nat.shiftLeft_eq]

theorem opField_encode (i : Instr) : opField (encode i) = opOf i := by
  apply BitVec.eq_of_toNat_eq
  have := (dataOf i).isLt
  rw [opField_toNat, encode_toNat]
  omega

theorem dataField_encode (i : Instr) : dataField (encode i) = dataOf i := by
  apply BitVec.eq_of_toNat_eq
  have := (dataOf i).isLt
  rw [dataField_toNat, encode_toNat]
  omega

/-- The rows of the opcode map, and the one each word selects (R73, R74). -/
theorem decode_cases (w : Word) :
    ((opField w).toNat = 0 ∧ decode w = .nop) ∨ ((opField w).toNat = 1 ∧ decode w = .init) ∨
    ((opField w).toNat = 2 ∧ decode w = .absorb (dataField w)) ∨ ((opField w).toNat = 3 ∧ decode w = .finish) ∨
    (4 ≤ (opField w).toNat ∧ (opField w).toNat ≤ 7 ∧ decode w = .reservedLow (opField w)) ∨
    (8 ≤ (opField w).toNat ∧ decode w = .reservedHigh (opField w)) := by
  unfold decode
  split <;> simp_all
  omega

end Sys2Proof
end

