-- ==== Sys2Proof/Laws/State.lean ====
section
/-! SUPPORT. One lemma per field per update: what each update of State leaves in each field, so that no later proof unfolds a
record update. -/

namespace Sys2Proof.Machine

variable (s : State)

/-! ### setX -/

@[simp] theorem setX_cfg (i : Fin 48) (v : Byte) : (setX i v s).cfg = s.cfg := rfl
@[simp] theorem setX_X (i : Fin 48) (v : Byte) : (setX i v s).X = s.X.set i.val v := rfl
@[simp] theorem setX_C (i : Fin 48) (v : Byte) : (setX i v s).C = s.C := rfl
@[simp] theorem setX_CL (i : Fin 48) (v : Byte) : (setX i v s).CL = s.CL := rfl
@[simp] theorem setX_T (i : Fin 48) (v : Byte) : (setX i v s).T = s.T := rfl
@[simp] theorem setX_POS (i : Fin 48) (v : Byte) : (setX i v s).POS = s.POS := rfl
@[simp] theorem setX_CNT (i : Fin 48) (v : Byte) : (setX i v s).CNT = s.CNT := rfl
@[simp] theorem setX_PADV (i : Fin 48) (v : Byte) : (setX i v s).PADV = s.PADV := rfl
@[simp] theorem setX_J (i : Fin 48) (v : Byte) : (setX i v s).J = s.J := rfl
@[simp] theorem setX_K (i : Fin 48) (v : Byte) : (setX i v s).K = s.K := rfl
@[simp] theorem setX_PHASE (i : Fin 48) (v : Byte) : (setX i v s).PHASE = s.PHASE := rfl
@[simp] theorem setX_KIND (i : Fin 48) (v : Byte) : (setX i v s).KIND = s.KIND := rfl
@[simp] theorem setX_ERR_ILL (i : Fin 48) (v : Byte) : (setX i v s).ERR_ILL = s.ERR_ILL := rfl
@[simp] theorem setX_ERR_SEQ (i : Fin 48) (v : Byte) : (setX i v s).ERR_SEQ = s.ERR_SEQ := rfl
@[simp] theorem setX_ERR_LEN (i : Fin 48) (v : Byte) : (setX i v s).ERR_LEN = s.ERR_LEN := rfl
@[simp] theorem setX_host (i : Fin 48) (v : Byte) : (setX i v s).host = s.host := rfl

/-! ### setC -/

@[simp] theorem setC_cfg (i : Fin 16) (v : Byte) : (setC i v s).cfg = s.cfg := rfl
@[simp] theorem setC_X (i : Fin 16) (v : Byte) : (setC i v s).X = s.X := rfl
@[simp] theorem setC_C (i : Fin 16) (v : Byte) : (setC i v s).C = s.C.set i.val v := rfl
@[simp] theorem setC_CL (i : Fin 16) (v : Byte) : (setC i v s).CL = s.CL := rfl
@[simp] theorem setC_T (i : Fin 16) (v : Byte) : (setC i v s).T = s.T := rfl
@[simp] theorem setC_POS (i : Fin 16) (v : Byte) : (setC i v s).POS = s.POS := rfl
@[simp] theorem setC_CNT (i : Fin 16) (v : Byte) : (setC i v s).CNT = s.CNT := rfl
@[simp] theorem setC_PADV (i : Fin 16) (v : Byte) : (setC i v s).PADV = s.PADV := rfl
@[simp] theorem setC_J (i : Fin 16) (v : Byte) : (setC i v s).J = s.J := rfl
@[simp] theorem setC_K (i : Fin 16) (v : Byte) : (setC i v s).K = s.K := rfl
@[simp] theorem setC_PHASE (i : Fin 16) (v : Byte) : (setC i v s).PHASE = s.PHASE := rfl
@[simp] theorem setC_KIND (i : Fin 16) (v : Byte) : (setC i v s).KIND = s.KIND := rfl
@[simp] theorem setC_ERR_ILL (i : Fin 16) (v : Byte) : (setC i v s).ERR_ILL = s.ERR_ILL := rfl
@[simp] theorem setC_ERR_SEQ (i : Fin 16) (v : Byte) : (setC i v s).ERR_SEQ = s.ERR_SEQ := rfl
@[simp] theorem setC_ERR_LEN (i : Fin 16) (v : Byte) : (setC i v s).ERR_LEN = s.ERR_LEN := rfl
@[simp] theorem setC_host (i : Fin 16) (v : Byte) : (setC i v s).host = s.host := rfl

/-! ### setFlag -/

@[simp] theorem setFlag_cfg (e : ErrorFlag) : (setFlag e s).cfg = s.cfg := by cases e <;> rfl
@[simp] theorem setFlag_X (e : ErrorFlag) : (setFlag e s).X = s.X := by cases e <;> rfl
@[simp] theorem setFlag_C (e : ErrorFlag) : (setFlag e s).C = s.C := by cases e <;> rfl
@[simp] theorem setFlag_CL (e : ErrorFlag) : (setFlag e s).CL = s.CL := by cases e <;> rfl
@[simp] theorem setFlag_T (e : ErrorFlag) : (setFlag e s).T = s.T := by cases e <;> rfl
@[simp] theorem setFlag_POS (e : ErrorFlag) : (setFlag e s).POS = s.POS := by cases e <;> rfl
@[simp] theorem setFlag_CNT (e : ErrorFlag) : (setFlag e s).CNT = s.CNT := by cases e <;> rfl
@[simp] theorem setFlag_PADV (e : ErrorFlag) : (setFlag e s).PADV = s.PADV := by cases e <;> rfl
@[simp] theorem setFlag_J (e : ErrorFlag) : (setFlag e s).J = s.J := by cases e <;> rfl
@[simp] theorem setFlag_K (e : ErrorFlag) : (setFlag e s).K = s.K := by cases e <;> rfl
@[simp] theorem setFlag_PHASE (e : ErrorFlag) : (setFlag e s).PHASE = s.PHASE := by cases e <;> rfl
@[simp] theorem setFlag_KIND (e : ErrorFlag) : (setFlag e s).KIND = s.KIND := by cases e <;> rfl
@[simp] theorem setFlag_ERR_ILL (e : ErrorFlag) : (setFlag e s).ERR_ILL = (s.ERR_ILL || decide (e = .ill)) := by cases e <;> simp [setFlag]
@[simp] theorem setFlag_ERR_SEQ (e : ErrorFlag) : (setFlag e s).ERR_SEQ = (s.ERR_SEQ || decide (e = .seq)) := by cases e <;> simp [setFlag]
@[simp] theorem setFlag_ERR_LEN (e : ErrorFlag) : (setFlag e s).ERR_LEN = (s.ERR_LEN || decide (e = .len)) := by cases e <;> simp [setFlag]
@[simp] theorem setFlag_host (e : ErrorFlag) : (setFlag e s).host = s.host := by cases e <;> rfl

/-! ### clearRegisters -/

@[simp] theorem clearRegisters_cfg : (clearRegisters s).cfg = s.cfg := rfl
@[simp] theorem clearRegisters_X : (clearRegisters s).X = Vector.replicate 48 0 := rfl
@[simp] theorem clearRegisters_C : (clearRegisters s).C = Vector.replicate 16 0 := rfl
@[simp] theorem clearRegisters_CL : (clearRegisters s).CL = 0 := rfl
@[simp] theorem clearRegisters_T : (clearRegisters s).T = 0 := rfl
@[simp] theorem clearRegisters_POS : (clearRegisters s).POS = 0 := rfl
@[simp] theorem clearRegisters_CNT : (clearRegisters s).CNT = 0 := rfl
@[simp] theorem clearRegisters_PADV : (clearRegisters s).PADV = 0 := rfl
@[simp] theorem clearRegisters_J : (clearRegisters s).J = 0 := rfl
@[simp] theorem clearRegisters_K : (clearRegisters s).K = 0 := rfl
@[simp] theorem clearRegisters_PHASE : (clearRegisters s).PHASE = s.PHASE := rfl
@[simp] theorem clearRegisters_KIND : (clearRegisters s).KIND = .msg := rfl
@[simp] theorem clearRegisters_ERR_ILL : (clearRegisters s).ERR_ILL = false := rfl
@[simp] theorem clearRegisters_ERR_SEQ : (clearRegisters s).ERR_SEQ = false := rfl
@[simp] theorem clearRegisters_ERR_LEN : (clearRegisters s).ERR_LEN = false := rfl
@[simp] theorem clearRegisters_host : (clearRegisters s).host = s.host := rfl

/-! ### applyReset -/

@[simp] theorem applyReset_cfg : (applyReset s).cfg = s.cfg := rfl
@[simp] theorem applyReset_X : (applyReset s).X = Vector.replicate 48 0 := rfl
@[simp] theorem applyReset_C : (applyReset s).C = Vector.replicate 16 0 := rfl
@[simp] theorem applyReset_CL : (applyReset s).CL = 0 := rfl
@[simp] theorem applyReset_T : (applyReset s).T = 0 := rfl
@[simp] theorem applyReset_POS : (applyReset s).POS = 0 := rfl
@[simp] theorem applyReset_CNT : (applyReset s).CNT = 0 := rfl
@[simp] theorem applyReset_PADV : (applyReset s).PADV = 0 := rfl
@[simp] theorem applyReset_J : (applyReset s).J = 0 := rfl
@[simp] theorem applyReset_K : (applyReset s).K = 0 := rfl
@[simp] theorem applyReset_PHASE : (applyReset s).PHASE = .idle := rfl
@[simp] theorem applyReset_KIND : (applyReset s).KIND = .msg := rfl
@[simp] theorem applyReset_ERR_ILL : (applyReset s).ERR_ILL = false := rfl
@[simp] theorem applyReset_ERR_SEQ : (applyReset s).ERR_SEQ = false := rfl
@[simp] theorem applyReset_ERR_LEN : (applyReset s).ERR_LEN = false := rfl
@[simp] theorem applyReset_host : (applyReset s).host = s.host := rfl

/-! ### csumStep -/

@[simp] theorem csumStep_cfg (c : Byte) : (csumStep c s).cfg = s.cfg := rfl
@[simp] theorem csumStep_X (c : Byte) : (csumStep c s).X = s.X := rfl
@[simp] theorem csumStep_C (c : Byte) : (csumStep c s).C = s.C.set s.POS.val (s.C[s.POS.val] ^^^ tableEntry s.cfg (c ^^^ s.CL)) := rfl
@[simp] theorem csumStep_CL (c : Byte) : (csumStep c s).CL = s.C[s.POS.val] ^^^ tableEntry s.cfg (c ^^^ s.CL) := by simp [csumStep, getC]
@[simp] theorem csumStep_T (c : Byte) : (csumStep c s).T = s.T := rfl
@[simp] theorem csumStep_POS (c : Byte) : (csumStep c s).POS = s.POS := rfl
@[simp] theorem csumStep_CNT (c : Byte) : (csumStep c s).CNT = s.CNT := rfl
@[simp] theorem csumStep_PADV (c : Byte) : (csumStep c s).PADV = s.PADV := rfl
@[simp] theorem csumStep_J (c : Byte) : (csumStep c s).J = s.J := rfl
@[simp] theorem csumStep_K (c : Byte) : (csumStep c s).K = s.K := rfl
@[simp] theorem csumStep_PHASE (c : Byte) : (csumStep c s).PHASE = s.PHASE := rfl
@[simp] theorem csumStep_KIND (c : Byte) : (csumStep c s).KIND = s.KIND := rfl
@[simp] theorem csumStep_ERR_ILL (c : Byte) : (csumStep c s).ERR_ILL = s.ERR_ILL := rfl
@[simp] theorem csumStep_ERR_SEQ (c : Byte) : (csumStep c s).ERR_SEQ = s.ERR_SEQ := rfl
@[simp] theorem csumStep_ERR_LEN (c : Byte) : (csumStep c s).ERR_LEN = s.ERR_LEN := rfl
@[simp] theorem csumStep_host (c : Byte) : (csumStep c s).host = s.host := rfl

/-! ### loadByte -/

@[simp] theorem loadByte_cfg (v : Byte) : (loadByte v s).cfg = s.cfg := rfl
@[simp] theorem loadByte_C (v : Byte) : (loadByte v s).C = s.C := rfl
@[simp] theorem loadByte_CL (v : Byte) : (loadByte v s).CL = s.CL := rfl
@[simp] theorem loadByte_T (v : Byte) : (loadByte v s).T = s.T := rfl
@[simp] theorem loadByte_POS (v : Byte) : (loadByte v s).POS = s.POS := rfl
@[simp] theorem loadByte_CNT (v : Byte) : (loadByte v s).CNT = s.CNT := rfl
@[simp] theorem loadByte_PADV (v : Byte) : (loadByte v s).PADV = s.PADV := rfl
@[simp] theorem loadByte_J (v : Byte) : (loadByte v s).J = s.J := rfl
@[simp] theorem loadByte_K (v : Byte) : (loadByte v s).K = s.K := rfl
@[simp] theorem loadByte_PHASE (v : Byte) : (loadByte v s).PHASE = s.PHASE := rfl
@[simp] theorem loadByte_KIND (v : Byte) : (loadByte v s).KIND = s.KIND := rfl
@[simp] theorem loadByte_ERR_ILL (v : Byte) : (loadByte v s).ERR_ILL = s.ERR_ILL := rfl
@[simp] theorem loadByte_ERR_SEQ (v : Byte) : (loadByte v s).ERR_SEQ = s.ERR_SEQ := rfl
@[simp] theorem loadByte_ERR_LEN (v : Byte) : (loadByte v s).ERR_LEN = s.ERR_LEN := rfl
@[simp] theorem loadByte_host (v : Byte) : (loadByte v s).host = s.host := rfl

/-! ### startMix -/

@[simp] theorem startMix_cfg (k : Kind) : (startMix k s).cfg = s.cfg := rfl
@[simp] theorem startMix_X (k : Kind) : (startMix k s).X = s.X := rfl
@[simp] theorem startMix_C (k : Kind) : (startMix k s).C = s.C := rfl
@[simp] theorem startMix_CL (k : Kind) : (startMix k s).CL = s.CL := rfl
@[simp] theorem startMix_T (k : Kind) : (startMix k s).T = 0 := rfl
@[simp] theorem startMix_POS (k : Kind) : (startMix k s).POS = s.POS := rfl
@[simp] theorem startMix_CNT (k : Kind) : (startMix k s).CNT = s.CNT := rfl
@[simp] theorem startMix_PADV (k : Kind) : (startMix k s).PADV = s.PADV := rfl
@[simp] theorem startMix_J (k : Kind) : (startMix k s).J = 0 := rfl
@[simp] theorem startMix_K (k : Kind) : (startMix k s).K = 0 := rfl
@[simp] theorem startMix_PHASE (k : Kind) : (startMix k s).PHASE = .mix := rfl
@[simp] theorem startMix_KIND (k : Kind) : (startMix k s).KIND = k := rfl
@[simp] theorem startMix_ERR_ILL (k : Kind) : (startMix k s).ERR_ILL = s.ERR_ILL := rfl
@[simp] theorem startMix_ERR_SEQ (k : Kind) : (startMix k s).ERR_SEQ = s.ERR_SEQ := rfl
@[simp] theorem startMix_ERR_LEN (k : Kind) : (startMix k s).ERR_LEN = s.ERR_LEN := rfl
@[simp] theorem startMix_host (k : Kind) : (startMix k s).host = s.host := rfl

/-! ### advancePos: the fields it never changes, and POS (the others: advancePos_eq below) -/

@[simp] theorem advancePos_cfg (k : Kind) : (advancePos k s).cfg = s.cfg := by unfold advancePos; split <;> rfl
@[simp] theorem advancePos_X (k : Kind) : (advancePos k s).X = s.X := by unfold advancePos; split <;> rfl
@[simp] theorem advancePos_C (k : Kind) : (advancePos k s).C = s.C := by unfold advancePos; split <;> rfl
@[simp] theorem advancePos_CL (k : Kind) : (advancePos k s).CL = s.CL := by unfold advancePos; split <;> rfl
@[simp] theorem advancePos_CNT (k : Kind) : (advancePos k s).CNT = s.CNT := by unfold advancePos; split <;> rfl
@[simp] theorem advancePos_PADV (k : Kind) : (advancePos k s).PADV = s.PADV := by unfold advancePos; split <;> rfl
@[simp] theorem advancePos_ERR_ILL (k : Kind) : (advancePos k s).ERR_ILL = s.ERR_ILL := by unfold advancePos; split <;> rfl
@[simp] theorem advancePos_ERR_SEQ (k : Kind) : (advancePos k s).ERR_SEQ = s.ERR_SEQ := by unfold advancePos; split <;> rfl
@[simp] theorem advancePos_ERR_LEN (k : Kind) : (advancePos k s).ERR_LEN = s.ERR_LEN := by unfold advancePos; split <;> rfl
@[simp] theorem advancePos_host (k : Kind) : (advancePos k s).host = s.host := by unfold advancePos; split <;> rfl

@[simp] theorem advancePos_POS (k : Kind) : (advancePos k s).POS = s.POS + 1 := by
  unfold advancePos
  split
  next h => simp [h]
  next => rfl

/-! ### hostMoved -/

@[simp] theorem hostMoved_cfg : (hostMoved s).cfg = s.cfg := rfl
@[simp] theorem hostMoved_X : (hostMoved s).X = s.X := rfl
@[simp] theorem hostMoved_C : (hostMoved s).C = s.C := rfl
@[simp] theorem hostMoved_CL : (hostMoved s).CL = s.CL := rfl
@[simp] theorem hostMoved_T : (hostMoved s).T = s.T := rfl
@[simp] theorem hostMoved_POS : (hostMoved s).POS = s.POS := rfl
@[simp] theorem hostMoved_CNT : (hostMoved s).CNT = s.CNT := rfl
@[simp] theorem hostMoved_PADV : (hostMoved s).PADV = s.PADV := rfl
@[simp] theorem hostMoved_J : (hostMoved s).J = s.J := rfl
@[simp] theorem hostMoved_K : (hostMoved s).K = s.K := rfl
@[simp] theorem hostMoved_PHASE : (hostMoved s).PHASE = s.PHASE := rfl
@[simp] theorem hostMoved_KIND : (hostMoved s).KIND = s.KIND := rfl
@[simp] theorem hostMoved_ERR_ILL : (hostMoved s).ERR_ILL = s.ERR_ILL := rfl
@[simp] theorem hostMoved_ERR_SEQ : (hostMoved s).ERR_SEQ = s.ERR_SEQ := rfl
@[simp] theorem hostMoved_ERR_LEN : (hostMoved s).ERR_LEN = s.ERR_LEN := rfl

/-! ### presentWord -/

@[simp] theorem presentWord_cfg (w : Word) : (presentWord w s).cfg = s.cfg := rfl
@[simp] theorem presentWord_X (w : Word) : (presentWord w s).X = s.X := rfl
@[simp] theorem presentWord_C (w : Word) : (presentWord w s).C = s.C := rfl
@[simp] theorem presentWord_CL (w : Word) : (presentWord w s).CL = s.CL := rfl
@[simp] theorem presentWord_T (w : Word) : (presentWord w s).T = s.T := rfl
@[simp] theorem presentWord_POS (w : Word) : (presentWord w s).POS = s.POS := rfl
@[simp] theorem presentWord_CNT (w : Word) : (presentWord w s).CNT = s.CNT := rfl
@[simp] theorem presentWord_PADV (w : Word) : (presentWord w s).PADV = s.PADV := rfl
@[simp] theorem presentWord_J (w : Word) : (presentWord w s).J = s.J := rfl
@[simp] theorem presentWord_K (w : Word) : (presentWord w s).K = s.K := rfl
@[simp] theorem presentWord_PHASE (w : Word) : (presentWord w s).PHASE = s.PHASE := rfl
@[simp] theorem presentWord_KIND (w : Word) : (presentWord w s).KIND = s.KIND := rfl
@[simp] theorem presentWord_ERR_ILL (w : Word) : (presentWord w s).ERR_ILL = s.ERR_ILL := rfl
@[simp] theorem presentWord_ERR_SEQ (w : Word) : (presentWord w s).ERR_SEQ = s.ERR_SEQ := rfl
@[simp] theorem presentWord_ERR_LEN (w : Word) : (presentWord w s).ERR_LEN = s.ERR_LEN := rfl

end Sys2Proof.Machine
end

