-- ==== Sys2Proof/Laws/Ops.lean ====
section
/-! SUPPORT. One lemma per shared operation that says everything it does: reads after writes of the two arrays, the primitives
CsumStep, LoadByte and the end of a byte load, and each command where cmd_ready = 1 and where it is 0. -/

namespace Sys2Proof.Machine

variable (s : State)

/-! ### Reads after writes -/

theorem getX_setX (i j : Fin 48) (v : Byte) : getX (setX i v s) j = if i = j then v else getX s j := by
  simp [getX, Vector.getElem_set, Fin.ext_iff]

theorem getC_setC (i j : Fin 16) (v : Byte) : getC (setC i v s) j = if i = j then v else getC s j := by
  simp [getC, Vector.getElem_set, Fin.ext_iff]

/-! ### The regions are apart -/

@[simp] theorem region1_val (p : Fin 16) : (region1 p).val = 16 + p.val := rfl
@[simp] theorem region2_val (p : Fin 16) : (region2 p).val = 32 + p.val := rfl
@[simp] theorem region0_val (p : Fin 16) : (region0 p).val = p.val := rfl
@[simp] theorem padLeft_val (p : Fin 16) : (padLeft p).val = 16 - p.val := rfl

/-! ### The primitives -/

/-- LoadByte: positions 16 + POS and 32 + POS, and no other (R170). -/
@[simp] theorem loadByte_X (v : Byte) :
    (loadByte v s).X = (s.X.set (16 + s.POS.val) v).set (32 + s.POS.val) (v ^^^ s.X[s.POS.val]) := by
  simp [loadByte, getX]

/-- The end of a byte load, both ways (R135, R152, R178). -/
theorem advancePos_eq (k : Kind) :
    advancePos k s =
      if s.POS = 15 then { s with POS := 0, PHASE := .mix, KIND := k, T := 0, J := 0, K := 0 }
      else { s with POS := s.POS + 1 } := rfl

theorem cntFull_iff : cntFull s = true ↔ s.CNT = 2 ^ s.cfg.LENW - 1 :=
  decide_eq_true_iff

theorem cntFull_false_iff : cntFull s = false ↔ s.CNT ≠ 2 ^ s.cfg.LENW - 1 :=
  decide_eq_false_iff_not

/-- The status port is a function of the phase and the flags (R193). -/
theorem statusPort_eq :
    statusPort s =
      (0#1 ++ BitVec.ofBool s.ERR_LEN ++ BitVec.ofBool s.ERR_SEQ ++ BitVec.ofBool s.ERR_ILL ++ 0#1 ++
        BitVec.ofBool (openPhase s.PHASE) ++ BitVec.ofBool (decide (s.PHASE = .done)) ++
        BitVec.ofBool (busyPhase s.PHASE)) := rfl

/-! ### The phases -/

theorem cmdReady_iff : cmdReady s = true ↔ s.PHASE = .idle ∨ s.PHASE = .absorb ∨ s.PHASE = .done := by
  unfold cmdReady
  cases s.PHASE <;> decide

theorem not_cmdReady_iff : cmdReady s = false ↔ s.PHASE = .pad ∨ s.PHASE = .mix ∨ s.PHASE = .feedc := by
  unfold cmdReady
  cases s.PHASE <;> decide

/-! ### The commands -/

/-- In a busy phase every command is held (R130, R132). -/
theorem exec_held (i : Instr) (h : cmdReady s = false) : exec i s = .next s := by
  cases i <;> simp [exec, execNop, execInit, execAbsorb, execFinish, execReservedLow, execReservedHigh, whenReady, h]

theorem exec_nop : exec .nop s = .next s := by
  simp [exec, execNop, whenReady]

theorem exec_init (h : cmdReady s = true) : exec .init s = .next { clearRegisters s with PHASE := .absorb } := by
  simp [exec, execInit, whenReady, h]

theorem exec_reservedLow (op : BitVec 4) (h : cmdReady s = true) :
    exec (.reservedLow op) s = .next { s with ERR_ILL := true } := by
  simp [exec, execReservedLow, whenReady, h, raiseError, setFlag]

theorem exec_reservedHigh (op : BitVec 4) (h : cmdReady s = true) :
    exec (.reservedHigh op) s = .next { s with ERR_ILL := true } := by
  simp [exec, execReservedHigh, whenReady, h, raiseError, setFlag]

theorem exec_finish (h : s.PHASE = .absorb) :
    exec .finish s = .next { s with PADV := padLeft s.POS, PHASE := .pad } := by
  have hr : cmdReady s = true := (cmdReady_iff s).mpr (.inr (.inl h))
  simp [exec, execFinish, whenReady, hr, h]

theorem exec_finish_seq (hr : cmdReady s = true) (h : s.PHASE ≠ .absorb) :
    exec .finish s = .next { s with ERR_SEQ := true } := by
  simp [exec, execFinish, whenReady, hr, h, raiseError, setFlag]

theorem exec_absorb_seq (d : Byte) (hr : cmdReady s = true) (h : s.PHASE ≠ .absorb) :
    exec (.absorb d) s = .next { s with ERR_SEQ := true } := by
  simp [exec, execAbsorb, whenReady, hr, h, raiseError, setFlag]

theorem exec_absorb_len (d : Byte) (h : s.PHASE = .absorb) (hc : cntFull s = true) :
    exec (.absorb d) s = .next { s with ERR_LEN := true } := by
  have hr : cmdReady s = true := (cmdReady_iff s).mpr (.inr (.inl h))
  simp [exec, execAbsorb, whenReady, hr, h, hc, raiseError, setFlag]

/-- The state an error-free ABSORB leaves (R135). -/
theorem exec_absorb (d : Byte) (h : s.PHASE = .absorb) (hc : cntFull s = false) :
    exec (.absorb d) s =
      .next (advancePos .msg { loadByte d (csumStep d s) with CNT := s.CNT + 1 }) := by
  have hr : cmdReady s = true := (cmdReady_iff s).mpr (.inr (.inl h))
  simp [exec, execAbsorb, whenReady, hr, h, hc]

/-- Everything a command can do where cmd_ready = 1. -/
theorem exec_cases (i : Instr) (hr : cmdReady s = true) :
    (i = .nop ∧ exec i s = .next s) ∨
    (i = .init ∧ exec i s = .next { clearRegisters s with PHASE := .absorb }) ∨
    (∃ d, i = .absorb d ∧ s.PHASE ≠ .absorb ∧ exec i s = .next { s with ERR_SEQ := true }) ∨
    (∃ d, i = .absorb d ∧ s.PHASE = .absorb ∧ cntFull s = true ∧ exec i s = .next { s with ERR_LEN := true }) ∨
    (∃ d, i = .absorb d ∧ s.PHASE = .absorb ∧ cntFull s = false ∧
      exec i s = .next (advancePos .msg { loadByte d (csumStep d s) with CNT := s.CNT + 1 })) ∨
    (i = .finish ∧ s.PHASE ≠ .absorb ∧ exec i s = .next { s with ERR_SEQ := true }) ∨
    (i = .finish ∧ s.PHASE = .absorb ∧ exec i s = .next { s with PADV := padLeft s.POS, PHASE := .pad }) ∨
    (((∃ op, i = .reservedLow op) ∨ ∃ op, i = .reservedHigh op) ∧ exec i s = .next { s with ERR_ILL := true }) := by
  cases i with
  | nop => exact .inl ⟨rfl, exec_nop s⟩
  | init => exact .inr (.inl ⟨rfl, exec_init s hr⟩)
  | absorb d =>
    by_cases h : s.PHASE = .absorb
    · cases hc : cntFull s with
      | true => exact .inr (.inr (.inr (.inl ⟨d, rfl, h, rfl, exec_absorb_len s d h hc⟩)))
      | false => exact .inr (.inr (.inr (.inr (.inl ⟨d, rfl, h, rfl, exec_absorb s d h hc⟩))))
    · exact .inr (.inr (.inl ⟨d, rfl, h, exec_absorb_seq s d hr h⟩))
  | finish =>
    by_cases h : s.PHASE = .absorb
    · exact .inr (.inr (.inr (.inr (.inr (.inr (.inl ⟨rfl, h, exec_finish s h⟩))))))
    · exact .inr (.inr (.inr (.inr (.inr (.inl ⟨rfl, h, exec_finish_seq s hr h⟩)))))
  | reservedLow op =>
    exact .inr (.inr (.inr (.inr (.inr (.inr (.inr ⟨.inl ⟨op, rfl⟩, exec_reservedLow s op hr⟩))))))
  | reservedHigh op =>
    exact .inr (.inr (.inr (.inr (.inr (.inr (.inr ⟨.inr ⟨op, rfl⟩, exec_reservedHigh s op hr⟩))))))

/-- Every command answers a next state in every phase (R200, R204). -/
theorem exec_completes (i : Instr) : ∃ t, exec i s = .next t := by
  cases hr : cmdReady s with
  | false => exact ⟨s, exec_held s i hr⟩
  | true => rcases exec_cases s i hr with h | h | ⟨_, h⟩ | ⟨_, h⟩ | ⟨_, h⟩ | h | h | h <;> grind

/-- No command touches the parameters or the host's side. -/
theorem exec_frame (i : Instr) {t : State} (h : exec i s = .next t) : t.cfg = s.cfg ∧ t.host = s.host := by
  cases hr : cmdReady s with
  | false => rw [exec_held s i hr] at h; cases h; exact ⟨rfl, rfl⟩
  | true =>
    rcases exec_cases s i hr with ⟨_, e⟩ | ⟨_, e⟩ | ⟨_, _, _, e⟩ | ⟨_, _, _, _, e⟩ | ⟨_, _, _, _, e⟩ | ⟨_, _, e⟩ | ⟨_, _, e⟩ |
      ⟨_, e⟩ <;> rw [e] at h <;> cases h <;> simp

/-! ### The micro-steps -/

/-- MIX_STEP, its three ways (R175, R176). -/
theorem mixStep_eq :
    mixStep s =
      (let v := s.X[s.K.val] ^^^ tableEntry s.cfg s.T
       if s.K = 47 then
         if s.J = 17 then
           { s with X := s.X.set s.K.val v, T := addRound v s.J, K := 0, J := 0, PHASE := nextPhase s.KIND }
         else { s with X := s.X.set s.K.val v, T := addRound v s.J, K := 0, J := s.J + 1 }
       else { s with X := s.X.set s.K.val v, T := v, K := s.K + 1 }) := rfl

end Sys2Proof.Machine
end

