-- ==== Sys2Proof/Laws/Step.lean ====
section
/-! SUPPORT. What one step can do, said once: the inversion of `step`, the acceptance of a command, and that the core's moves do
not look at the host's side. -/

namespace Sys2Proof.Machine

variable (s : State)

/-! ### The host's side -/

/-- `s` with another host's side. -/
def withHost (h : HostSide) (s : State) : State := { s with host := h }

@[simp] theorem withHost_withHost (h g : HostSide) : withHost h (withHost g s) = withHost h s := rfl

@[simp] theorem withHost_self : withHost s.host s = s := rfl

@[simp] theorem withHost_cfg (h : HostSide) : (withHost h s).cfg = s.cfg := rfl
@[simp] theorem withHost_X (h : HostSide) : (withHost h s).X = s.X := rfl
@[simp] theorem withHost_C (h : HostSide) : (withHost h s).C = s.C := rfl
@[simp] theorem withHost_CL (h : HostSide) : (withHost h s).CL = s.CL := rfl
@[simp] theorem withHost_T (h : HostSide) : (withHost h s).T = s.T := rfl
@[simp] theorem withHost_POS (h : HostSide) : (withHost h s).POS = s.POS := rfl
@[simp] theorem withHost_CNT (h : HostSide) : (withHost h s).CNT = s.CNT := rfl
@[simp] theorem withHost_PADV (h : HostSide) : (withHost h s).PADV = s.PADV := rfl
@[simp] theorem withHost_J (h : HostSide) : (withHost h s).J = s.J := rfl
@[simp] theorem withHost_K (h : HostSide) : (withHost h s).K = s.K := rfl
@[simp] theorem withHost_PHASE (h : HostSide) : (withHost h s).PHASE = s.PHASE := rfl
@[simp] theorem withHost_KIND (h : HostSide) : (withHost h s).KIND = s.KIND := rfl
@[simp] theorem withHost_ERR_ILL (h : HostSide) : (withHost h s).ERR_ILL = s.ERR_ILL := rfl
@[simp] theorem withHost_ERR_SEQ (h : HostSide) : (withHost h s).ERR_SEQ = s.ERR_SEQ := rfl
@[simp] theorem withHost_ERR_LEN (h : HostSide) : (withHost h s).ERR_LEN = s.ERR_LEN := rfl
@[simp] theorem withHost_host (h : HostSide) : (withHost h s).host = h := rfl
@[simp] theorem cmdReady_withHost (h : HostSide) : cmdReady (withHost h s) = cmdReady s := rfl
@[simp] theorem cntFull_withHost (h : HostSide) : cntFull (withHost h s) = cntFull s := rfl

/-- `hostMoved` moves only the host's side. -/
theorem hostMoved_eq : hostMoved s = withHost (hostMoved s).host s := rfl

@[simp] theorem hostMoved_acts :
    (hostMoved s).host.acts = if actDone s then s.host.acts.tail else s.host.acts := rfl
@[simp] theorem hostMoved_samples : (hostMoved s).host.samples = s.host.samples ++ sampled s := rfl
@[simp] theorem hostMoved_draws : (hostMoved s).host.draws = s.host.draws + 1 := rfl
@[simp] theorem cmdReady_hostMoved : cmdReady (hostMoved s) = cmdReady s := rfl
@[simp] theorem cntFull_hostMoved : cntFull (hostMoved s) = cntFull s := rfl

/-! The shared operations and the micro-steps do not look at the host's side. -/

theorem csumStep_withHost (h : HostSide) (c : Byte) : csumStep c (withHost h s) = withHost h (csumStep c s) := rfl

theorem loadByte_withHost (h : HostSide) (v : Byte) : loadByte v (withHost h s) = withHost h (loadByte v s) := rfl

theorem advancePos_withHost (h : HostSide) (k : Kind) : advancePos k (withHost h s) = withHost h (advancePos k s) := by
  by_cases h15 : s.POS = 15 <;> simp [advancePos_eq, h15, withHost]

theorem padStep_withHost (h : HostSide) : padStep (withHost h s) = withHost h (padStep s) := by
  simp only [padStep, ← advancePos_withHost, ← loadByte_withHost, ← csumStep_withHost]
  rfl

theorem mixStep_withHost (h : HostSide) : mixStep (withHost h s) = withHost h (mixStep s) := by
  by_cases hk : s.K = 47 <;> by_cases hj : s.J = 17 <;> simp [mixStep_eq, hk, hj, withHost]

theorem feedcStep_withHost (h : HostSide) : feedcStep (withHost h s) = withHost h (feedcStep s) := by
  simp only [feedcStep, ← advancePos_withHost, ← loadByte_withHost]
  rfl

theorem microStep_withHost (h : HostSide) : microStep (withHost h s) = withHost h (microStep s) := by
  unfold microStep
  simp only [withHost_PHASE]
  split
  · rfl
  · rfl
  · exact padStep_withHost s h
  · exact mixStep_withHost s h
  · exact feedcStep_withHost s h
  · rfl

/-! ### Acceptance (R130) -/

theorem accepted_eq_some {i : Instr} :
    accepted s = some i ↔
      rstDriven s = false ∧ cmdReady s = true ∧ ∃ w, presented s = some w ∧ decode w = i := by
  unfold accepted
  cases rstDriven s <;> cases cmdReady s <;> simp

theorem accepted_rst (h : rstDriven s = true) : accepted s = none := by simp [accepted, h]

theorem accepted_busy (h : cmdReady s = false) : accepted s = none := by simp [accepted, h]

/-! ### The four ways a step goes -/

theorem step_reset (h : rstDriven s = true) : step s = .next (applyReset (hostMoved s)) := by
  simp [step, coreStep, h]

theorem step_busy (h : rstDriven s = false) (hb : cmdReady s = false) :
    step s = .next (microStep (hostMoved s)) := by
  simp [step, coreStep, h, hb]

theorem step_wait (h : rstDriven s = false) (hr : cmdReady s = true) (hp : presented s = none) :
    step s = .next (hostMoved s) := by
  simp [step, coreStep, h, hr, hp]

theorem step_exec {w : Word} (h : rstDriven s = false) (hr : cmdReady s = true) (hp : presented s = some w) :
    step s = exec (decode w) (hostMoved s) := by
  simp [step, coreStep, h, hr, hp]

/-- The inversion of a step: a reset, a step in which the core waits, an accepted command, or a micro-step (R17, R57). -/
theorem step_cases {t : State} (hs : step s = .next t) :
    (rstDriven s = true ∧ accepted s = none ∧ t = applyReset (hostMoved s)) ∨
    (rstDriven s = false ∧ cmdReady s = true ∧ accepted s = none ∧ t = hostMoved s) ∨
    (rstDriven s = false ∧ cmdReady s = true ∧ ∃ i, accepted s = some i ∧ exec i (hostMoved s) = .next t) ∨
    (rstDriven s = false ∧ cmdReady s = false ∧ accepted s = none ∧ t = microStep (hostMoved s)) := by
  cases h : rstDriven s with
  | true =>
    rw [step_reset s h] at hs
    cases hs
    exact .inl ⟨rfl, accepted_rst s h, rfl⟩
  | false =>
    cases hr : cmdReady s with
    | false =>
      rw [step_busy s h hr] at hs
      cases hs
      exact .inr (.inr (.inr ⟨rfl, rfl, accepted_busy s hr, rfl⟩))
    | true =>
      cases hp : presented s with
      | none =>
        rw [step_wait s h hr hp] at hs
        cases hs
        exact .inr (.inl ⟨rfl, rfl, by simp [accepted, h, hr, hp], rfl⟩)
      | some w =>
        rw [step_exec s h hr hp] at hs
        exact .inr (.inr (.inl ⟨rfl, rfl, decode w, by simp [accepted, h, hr, hp], hs⟩))

/-- Every step answers a next state (R243). -/
theorem step_completes : ∃ t, step s = .next t := by
  cases h : rstDriven s with
  | true => exact ⟨_, step_reset s h⟩
  | false =>
    cases hr : cmdReady s with
    | false => exact ⟨_, step_busy s h hr⟩
    | true =>
      cases hp : presented s with
      | none => exact ⟨_, step_wait s h hr hp⟩
      | some w => rw [step_exec s h hr hp]; exact exec_completes _ _

/-! ### The micro-step of each phase -/

theorem microStep_pad (h : s.PHASE = .pad) : microStep s = padStep s := by simp [microStep, h]
theorem microStep_mix (h : s.PHASE = .mix) : microStep s = mixStep s := by simp [microStep, h]
theorem microStep_feedc (h : s.PHASE = .feedc) : microStep s = feedcStep s := by simp [microStep, h]

/-- Everything a micro-step can do in a busy phase. -/
theorem microStep_cases (hb : cmdReady s = false) :
    (s.PHASE = .pad ∧ microStep s = padStep s) ∨ (s.PHASE = .mix ∧ microStep s = mixStep s) ∨
    (s.PHASE = .feedc ∧ microStep s = feedcStep s) := by
  rcases (not_cmdReady_iff s).mp hb with h | h | h
  · exact .inl ⟨h, microStep_pad s h⟩
  · exact .inr (.inl ⟨h, microStep_mix s h⟩)
  · exact .inr (.inr ⟨h, microStep_feedc s h⟩)

/-! ### What MIX_STEP leaves alone -/

@[simp] theorem mixStep_cfg : (mixStep s).cfg = s.cfg := by
  by_cases h1 : s.K = 47 <;> by_cases h2 : s.J = 17 <;> simp [mixStep_eq, h1, h2]

@[simp] theorem mixStep_C : (mixStep s).C = s.C := by
  by_cases h1 : s.K = 47 <;> by_cases h2 : s.J = 17 <;> simp [mixStep_eq, h1, h2]

@[simp] theorem mixStep_CL : (mixStep s).CL = s.CL := by
  by_cases h1 : s.K = 47 <;> by_cases h2 : s.J = 17 <;> simp [mixStep_eq, h1, h2]

@[simp] theorem mixStep_POS : (mixStep s).POS = s.POS := by
  by_cases h1 : s.K = 47 <;> by_cases h2 : s.J = 17 <;> simp [mixStep_eq, h1, h2]

@[simp] theorem mixStep_CNT : (mixStep s).CNT = s.CNT := by
  by_cases h1 : s.K = 47 <;> by_cases h2 : s.J = 17 <;> simp [mixStep_eq, h1, h2]

@[simp] theorem mixStep_PADV : (mixStep s).PADV = s.PADV := by
  by_cases h1 : s.K = 47 <;> by_cases h2 : s.J = 17 <;> simp [mixStep_eq, h1, h2]

@[simp] theorem mixStep_KIND : (mixStep s).KIND = s.KIND := by
  by_cases h1 : s.K = 47 <;> by_cases h2 : s.J = 17 <;> simp [mixStep_eq, h1, h2]

@[simp] theorem mixStep_ERR_ILL : (mixStep s).ERR_ILL = s.ERR_ILL := by
  by_cases h1 : s.K = 47 <;> by_cases h2 : s.J = 17 <;> simp [mixStep_eq, h1, h2]

@[simp] theorem mixStep_ERR_SEQ : (mixStep s).ERR_SEQ = s.ERR_SEQ := by
  by_cases h1 : s.K = 47 <;> by_cases h2 : s.J = 17 <;> simp [mixStep_eq, h1, h2]

@[simp] theorem mixStep_ERR_LEN : (mixStep s).ERR_LEN = s.ERR_LEN := by
  by_cases h1 : s.K = 47 <;> by_cases h2 : s.J = 17 <;> simp [mixStep_eq, h1, h2]

/-- MIX_STEP keeps MIX phase, but for the last position of the last round (R176, R177). -/
theorem mixStep_PHASE (h : s.PHASE = .mix) :
    (mixStep s).PHASE = if s.K = 47 ∧ s.J = 17 then nextPhase s.KIND else .mix := by
  by_cases h1 : s.K = 47 <;> by_cases h2 : s.J = 17 <;> simp [mixStep_eq, h1, h2, h]

/-! ### Every way a step goes -/

/-- The elimination of a step into its twelve ways: a reset, a step in which the core waits, each command by its outcome, and
the three micro-steps. -/
theorem step_elim {t : State} (hs : step s = .next t) (P : Prop)
    (onReset : rstDriven s = true → accepted s = none → t = applyReset (hostMoved s) → P)
    (onWait : rstDriven s = false → cmdReady s = true → accepted s = none → t = hostMoved s → P)
    (onNop : rstDriven s = false → cmdReady s = true → accepted s = some .nop → t = hostMoved s → P)
    (onInit : rstDriven s = false → cmdReady s = true → accepted s = some .init →
      t = { clearRegisters (hostMoved s) with PHASE := .absorb } → P)
    (onSeq : rstDriven s = false → cmdReady s = true →
      ((∃ d, accepted s = some (.absorb d)) ∨ accepted s = some .finish) ∧ s.PHASE ≠ .absorb →
      t = { hostMoved s with ERR_SEQ := true } → P)
    (onLen : rstDriven s = false → s.PHASE = .absorb → cntFull s = true → (∃ d, accepted s = some (.absorb d)) →
      t = { hostMoved s with ERR_LEN := true } → P)
    (onByte : ∀ d, rstDriven s = false → s.PHASE = .absorb → cntFull s = false → accepted s = some (.absorb d) →
      t = advancePos .msg { loadByte d (csumStep d (hostMoved s)) with CNT := s.CNT + 1 } → P)
    (onFinish : rstDriven s = false → s.PHASE = .absorb → accepted s = some .finish →
      t = { hostMoved s with PADV := padLeft s.POS, PHASE := .pad } → P)
    (onReserved : rstDriven s = false → cmdReady s = true →
      (∃ i, ((∃ op, i = .reservedLow op) ∨ ∃ op, i = .reservedHigh op) ∧ accepted s = some i) →
      t = { hostMoved s with ERR_ILL := true } → P)
    (onPad : rstDriven s = false → s.PHASE = .pad → accepted s = none → t = padStep (hostMoved s) → P)
    (onMix : rstDriven s = false → s.PHASE = .mix → accepted s = none → t = mixStep (hostMoved s) → P)
    (onFeedc : rstDriven s = false → s.PHASE = .feedc → accepted s = none → t = feedcStep (hostMoved s) → P) : P := by
  rcases step_cases s hs with ⟨h, ha, e⟩ | ⟨h, hr, ha, e⟩ | ⟨h, hr, i, ha, he⟩ | ⟨h, hb, ha, e⟩
  · exact onReset h ha e
  · exact onWait h hr ha e
  · rcases exec_cases (hostMoved s) i hr with ⟨hi, e⟩ | ⟨hi, e⟩ | ⟨d, hi, hp, e⟩ | ⟨d, hi, hp, hf, e⟩ | ⟨d, hi, hp, hf, e⟩ |
      ⟨hi, hp, e⟩ | ⟨hi, hp, e⟩ | ⟨hi, e⟩ <;> rw [e] at he <;> cases he
    · exact onNop h hr (by rw [ha, hi]) rfl
    · exact onInit h hr (by rw [ha, hi]) rfl
    · exact onSeq h hr ⟨.inl ⟨d, by rw [ha, hi]⟩, hp⟩ rfl
    · exact onLen h hp hf ⟨d, by rw [ha, hi]⟩ rfl
    · exact onByte d h hp hf (by rw [ha, hi]) rfl
    · exact onSeq h hr ⟨.inr (by rw [ha, hi]), hp⟩ rfl
    · exact onFinish h hp (by rw [ha, hi]) rfl
    · exact onReserved h hr ⟨i, hi, ha⟩ rfl
  · rcases microStep_cases (hostMoved s) hb with ⟨hp, e'⟩ | ⟨hp, e'⟩ | ⟨hp, e'⟩
    · exact onPad h hp ha (e.trans e')
    · exact onMix h hp ha (e.trans e')
    · exact onFeedc h hp ha (e.trans e')

end Sys2Proof.Machine
end

