-- ==== Sys2Proof/Laws/Run.lean ====
section
/-! SUPPORT. Runs of the machine, and how long a busy phase lasts: `remaining` counts the micro-steps left, every micro-step
takes one off, and it is 0 exactly where the core is ready (R138, 41_commands.md; R244, 70_reset_and_hazards.md). -/

namespace Sys2Proof.Machine

variable (s : State)

/-! ### Runs -/

@[simp] theorem run_zero : run 0 s = .next s := rfl

theorem run_succ {t : State} (n : Nat) (h : step s = .next t) : run (n + 1) s = run n t := by
  have h' : Sys2Proof.core.step s = .next t := h
  simp only [run, Host.Core.run, h']
  rfl

theorem run_add {t : State} (m n : Nat) (h : run m s = .next t) : run (m + n) s = run n t := by
  induction m generalizing s with
  | zero => cases h; simp
  | succ m ih =>
    obtain ⟨u, hu⟩ := step_completes s
    rw [run_succ s m hu] at h
    rw [Nat.succ_add, run_succ s _ hu, ih u h]

theorem run_completes (n : Nat) : ∃ t, run n s = .next t := by
  induction n generalizing s with
  | zero => exact ⟨s, rfl⟩
  | succ n ih =>
    obtain ⟨u, hu⟩ := step_completes s
    rw [run_succ s n hu]
    exact ih u

theorem run_snoc {t u : State} (n : Nat) (h : run n s = .next t) (hs : step t = .next u) : run (n + 1) s = .next u := by
  rw [run_add s n 1 h, run_succ t 0 hs, run_zero]

/-! ### Resets to come -/

theorem noReset_head (h : noReset s = true) : rstDriven s = false := by
  unfold noReset at h
  unfold rstDriven hostAct
  cases ha : s.host.acts with
  | nil => rfl
  | cons a rest =>
    rw [ha] at h
    cases a <;> simp_all

theorem noReset_hostMoved (h : noReset s = true) : noReset (hostMoved s) = true := by
  unfold noReset at h ⊢
  rw [hostMoved_acts]
  split
  · cases ha : s.host.acts with
    | nil => simp
    | cons a rest => rw [ha] at h; simp_all
  · exact h

theorem noReset_withHost (t : State) : noReset (withHost s.host t) = noReset s := rfl

/-! ### The micro-steps left -/

/-- The micro-steps left until the core is ready. -/
def remaining : Nat :=
  match s.PHASE with
  | .idle => 0
  | .absorb => 0
  | .pad => (16 - s.POS.val) + (864 + 16 + 864)
  | .mix => (864 - (48 * s.J.val + s.K.val)) + match s.KIND with
    | .msg => 0
    | .pad => (16 - s.POS.val) + 864
    | .csum => 0
  | .feedc => (16 - s.POS.val) + 864
  | .done => 0

/-- The ready phase the micro-steps lead to. -/
def destination : Phase :=
  match s.PHASE with
  | .idle => .idle
  | .absorb => .absorb
  | .pad => .done
  | .mix => match s.KIND with
    | .msg => .absorb
    | .pad => .done
    | .csum => .done
  | .feedc => .done
  | .done => .done

theorem eq_fifteen_iff (p : Fin 16) : p = 15 ↔ p.val = 15 := by rw [Fin.ext_iff]; rfl

theorem succ_pos_val {p : Fin 16} (h : p ≠ 15) : (p + 1).val = p.val + 1 := by
  have := mt (eq_fifteen_iff p).mpr h
  exact Fin.val_add_one_of_lt' (by omega)

theorem succ_J_val {j : Fin 18} (h : j ≠ 17) : (j + 1).val = j.val + 1 := by
  have : j.val ≠ 17 := fun e => h (Fin.ext e)
  exact Fin.val_add_one_of_lt' (by omega)

theorem succ_K_val {k : Fin 48} (h : k ≠ 47) : (k + 1).val = k.val + 1 := by
  have : k.val ≠ 47 := fun e => h (Fin.ext e)
  exact Fin.val_add_one_of_lt' (by omega)

/-- Every micro-step takes one off what remains and leads to the same end. -/
theorem microStep_remaining (hb : cmdReady s = false) :
    remaining (microStep s) + 1 = remaining s ∧ destination (microStep s) = destination s := by
  have hp16 := s.POS.isLt
  rcases microStep_cases s hb with ⟨hp, e⟩ | ⟨hp, e⟩ | ⟨hp, e⟩ <;> rw [e]
  · by_cases h15 : s.POS = 15
    · simp [padStep, advancePos_eq, h15, remaining, destination, hp]
    · have := succ_pos_val h15
      simp [padStep, advancePos_eq, h15, remaining, destination, hp, this]
      omega
  · have hk48 := s.K.isLt
    have hj18 := s.J.isLt
    by_cases hk : s.K = 47
    · by_cases hj : s.J = 17
      · cases hkd : s.KIND <;> simp [mixStep_eq, hk, hj, hkd, remaining, destination, hp, nextPhase]
        omega
      · have := succ_J_val hj
        simp only [mixStep_eq, hk, hj, remaining, destination, hp, this, if_true, if_false]
        refine ⟨?_, trivial⟩
        show 864 - (48 * (s.J.val + 1) + 0) + _ + 1 = 864 - (48 * s.J.val + 47) + _
        have : s.J.val ≠ 17 := fun e => hj (Fin.ext e)
        omega
    · have := succ_K_val hk
      simp only [mixStep_eq, hk, remaining, destination, hp, this, if_false]
      refine ⟨?_, trivial⟩
      have : s.K.val ≠ 47 := fun e => hk (Fin.ext e)
      omega
  · by_cases h15 : s.POS = 15
    · simp [feedcStep, advancePos_eq, h15, remaining, destination, hp]
    · have := succ_pos_val h15
      simp [feedcStep, advancePos_eq, h15, remaining, destination, hp, this]
      omega

theorem remaining_eq_zero_iff : remaining s = 0 ↔ cmdReady s = true := by
  have := s.POS.isLt
  have := s.J.isLt
  have := s.K.isLt
  unfold remaining cmdReady
  cases s.PHASE <;> simp [busyPhase]
  omega

theorem remaining_le : remaining s ≤ 1760 := by
  unfold remaining
  cases s.PHASE <;> simp <;> try omega
  cases s.KIND <;> simp <;> omega

/-- After as many micro-steps as remain, and no sooner, the core is ready. -/
theorem iterate_micro (k : Nat) (hk : k ≤ remaining s) :
    remaining (microStep^[k] s) = remaining s - k ∧ destination (microStep^[k] s) = destination s := by
  induction k with
  | zero => simp
  | succ k ih =>
    obtain ⟨h1, h2⟩ := ih (by omega)
    have hb : cmdReady (microStep^[k] s) = false := by
      have := mt (remaining_eq_zero_iff (microStep^[k] s)).mpr (by omega)
      simpa using this
    obtain ⟨h3, h4⟩ := microStep_remaining _ hb
    rw [Function.iterate_succ_apply']
    exact ⟨by omega, h4.trans h2⟩

theorem iterate_micro_busy (k : Nat) (hk : k < remaining s) : cmdReady (microStep^[k] s) = false := by
  have h := (iterate_micro s k (by omega)).1
  have := mt (remaining_eq_zero_iff (microStep^[k] s)).mpr (by omega)
  simpa using this

theorem destination_of_ready (h : cmdReady s = true) : destination s = s.PHASE := by
  unfold destination
  rcases (cmdReady_iff s).mp h with h | h | h <;> simp [h]

/-- A run of a busy phase without a reset is the iteration of the micro-step; only the host's side moves beside it. -/
theorem run_busy (n : Nat) (hn : n ≤ remaining s) (hr : noReset s = true) :
    ∃ h, run n s = .next (withHost h (microStep^[n] s)) ∧ noReset (withHost h s) = true := by
  induction n with
  | zero => exact ⟨s.host, rfl, hr⟩
  | succ n ih =>
    obtain ⟨h, h1, h2⟩ := ih (by omega)
    have hb := iterate_micro_busy s n (by omega)
    have h3 : noReset (withHost h (microStep^[n] s)) = true := h2
    refine ⟨(hostMoved (withHost h (microStep^[n] s))).host, ?_, ?_⟩
    · rw [Function.iterate_succ_apply']
      refine run_snoc s n h1 ?_
      rw [step_busy _ (noReset_head _ h3) hb, hostMoved_eq, microStep_withHost, microStep_withHost]
      rfl
    · exact noReset_hostMoved (withHost h (microStep^[n] s)) h3

/-- The end of a busy phase: after `remaining s` steps the core is in its destination, and it is busy until then. -/
theorem run_to_ready (hr : noReset s = true) :
    (∃ t, run (remaining s) s = .next t ∧ t.PHASE = destination s ∧ cmdReady t = true) ∧
    ∀ k u, k < remaining s → run k s = .next u → cmdReady u = false := by
  constructor
  · obtain ⟨h, h1, -⟩ := run_busy s (remaining s) le_rfl hr
    obtain ⟨h2, h3⟩ := iterate_micro s (remaining s) le_rfl
    have hready : cmdReady (microStep^[remaining s] s) = true := (remaining_eq_zero_iff _).mp (by omega)
    refine ⟨_, h1, ?_, hready⟩
    rw [← h3, destination_of_ready _ hready]
    rfl
  · intro k u hk hu
    obtain ⟨h, h1, -⟩ := run_busy s k (by omega) hr
    rw [h1] at hu
    cases hu
    exact iterate_micro_busy s k hk

/-- No step of a busy phase without a reset changes the message of the run (R136). -/
theorem messageOf_busy (n : Nat) (m : Option (List Byte)) (hn : n ≤ remaining s) (hr : noReset s = true) :
    messageOf n s m = m := by
  induction n generalizing s with
  | zero => rfl
  | succ n ih =>
    have hb : cmdReady s = false := by
      have := mt (remaining_eq_zero_iff s).mpr (by omega)
      simpa using this
    have hd := noReset_head s hr
    have hm : messageAfter s m = m := by simp [messageAfter, hd, accepted_busy s hb]
    have ht : microStep (hostMoved s) = withHost (hostMoved s).host (microStep s) := by
      rw [hostMoved_eq, microStep_withHost]
      rfl
    have hrem : remaining (withHost (hostMoved s).host (microStep s)) + 1 = remaining s := (microStep_remaining s hb).1
    have h2 : noReset (withHost (hostMoved s).host (microStep s)) = true := noReset_hostMoved s hr
    simp only [messageOf, step_busy s hd hb, hm, ht]
    exact ih _ (by omega) h2

end Sys2Proof.Machine
end

