-- ==== Sys2Proof/Laws/Reference.lean ====
section
/-! SUPPORT. The reference function byte by byte: what the copy loops of Compress leave at every position (R108, R112), a
compression pass as the iteration of MIX_STEP (R180), and the checksum of a growing buffer (R105, R160). -/

namespace Sys2Proof.Machine

/-! ### Lists of indices -/

theorem finRange_take_succ {n : Nat} (k : Nat) (h : k < n) :
    (List.finRange n).take (k + 1) = (List.finRange n).take k ++ [⟨k, h⟩] := by
  rw [List.take_add_one, List.getElem?_eq_getElem (by simpa using h)]
  simp

theorem finRange_take_all (n : Nat) : (List.finRange n).take n = List.finRange n :=
  List.take_of_length_le (by simp)

/-! ### The copy loops -/

theorem copy_fold_get (b : Vector Byte 16) (l : List (Fin 16)) (x : Vector Byte 48) (j : Nat) (hj : j < 48) :
    (l.foldl (fun x i => x.set (region1 i).val b[i.val]) x)[j] =
      if h : 16 ≤ j ∧ j < 32 then (if ⟨j - 16, by omega⟩ ∈ l then b[j - 16] else x[j]) else x[j] := by
  induction l generalizing x with
  | nil => simp
  | cons a l ih =>
    rw [List.foldl_cons, ih]
    have ha := a.isLt
    by_cases h : 16 ≤ j ∧ j < 32
    · by_cases he : a = ⟨j - 16, by omega⟩
      · have hv : 16 + a.val = j := by rw [he]; show 16 + (j - 16) = j; omega
        simp only [h, and_self, dite_true, he, List.mem_cons, true_or, if_true]
        split
        · rfl
        · simp [h]
      · have hne : ¬16 + a.val = j := fun e => he (Fin.ext (by simp; omega))
        have he' : ¬(⟨j - 16, by omega⟩ : Fin 16) = a := fun e => he e.symm
        simp [h, he', hne]
    · have hne : ¬16 + a.val = j := by omega
      simp [h, hne]

theorem xor_fold_get (l : List (Fin 16)) (x : Vector Byte 48) (j : Nat) (hj : j < 48) :
    (l.foldl (fun x i => x.set (region2 i).val (x[(region1 i).val] ^^^ x[(region0 i).val])) x)[j] =
      if h : 32 ≤ j then (if ⟨j - 32, by omega⟩ ∈ l then x[j - 16] ^^^ x[j - 32] else x[j]) else x[j] := by
  induction l generalizing x with
  | nil => simp
  | cons a l ih =>
    rw [List.foldl_cons, ih]
    have ha := a.isLt
    by_cases h : 32 ≤ j
    · have h1 : ¬32 + a.val = j - 16 := by omega
      have h2 : ¬32 + a.val = j - 32 := by omega
      by_cases he : a = ⟨j - 32, by omega⟩
      · have e1 : 32 + (j - 32) = j := by omega
        have e2 : 16 + (j - 32) = j - 16 := by omega
        simp [h, he, e1, e2, show ¬j = j - 16 by omega, show ¬j = j - 32 by omega]
      · have hne : ¬32 + a.val = j := fun e => he (Fin.ext (by simp; omega))
        have he' : ¬(⟨j - 32, by omega⟩ : Fin 16) = a := fun e => he e.symm
        simp [h, he', hne, h1, h2]
    · have hne : ¬32 + a.val = j := by omega
      simp [h, hne]

/-- The state a pass starts from: region 0 kept, region 1 the block, region 2 their XOR (R108). -/
theorem loaded_get (b : Vector Byte 16) (x : Vector Byte 48) (i : Fin 16) :
    (xorRegions (copyBlock b x))[i.val] = x[i.val] ∧
    (xorRegions (copyBlock b x))[16 + i.val] = b[i.val] ∧
    (xorRegions (copyBlock b x))[32 + i.val] = b[i.val] ^^^ x[i.val] := by
  have hi := i.isLt
  have c0 : ¬(16 ≤ i.val ∧ i.val < 32) := by omega
  have c1 : ¬32 ≤ i.val := by omega
  have c2 : ¬32 ≤ 16 + i.val := by omega
  have c3 : 16 + i.val < 32 := by omega
  have c4 : 32 + i.val - 16 = 16 + i.val := by omega
  have c5 : 32 + i.val - 32 = i.val := by omega
  refine ⟨?_, ?_, ?_⟩
  · unfold xorRegions copyBlock
    rw [xor_fold_get, dif_neg c1, copy_fold_get, dif_neg c0]
  · unfold xorRegions copyBlock
    rw [xor_fold_get, dif_neg c2, copy_fold_get, dif_pos ⟨by omega, c3⟩]
    simp
  · unfold xorRegions copyBlock
    rw [xor_fold_get, dif_pos (by omega)]
    simp only [List.mem_finRange, if_true, c4, c5]
    rw [copy_fold_get, copy_fold_get, dif_pos ⟨by omega, c3⟩, dif_neg c0]
    simp

/-- A 48-byte state is determined by its three regions. -/
theorem regions_ext {x y : Vector Byte 48}
    (h0 : ∀ i : Fin 16, x[i.val] = y[i.val]) (h1 : ∀ i : Fin 16, x[16 + i.val] = y[16 + i.val])
    (h2 : ∀ i : Fin 16, x[32 + i.val] = y[32 + i.val]) : x = y := by
  apply Vector.ext
  intro j hj
  by_cases a : j < 16
  · exact h0 ⟨j, a⟩
  · by_cases b : j < 32
    · have := h1 ⟨j - 16, by omega⟩
      have e : 16 + (j - 16) = j := by omega
      simpa [e] using this
    · have := h2 ⟨j - 32, by omega⟩
      have e : 32 + (j - 32) = j := by omega
      simpa [e] using this

/-- A loaded block is what the two copy loops make, from any state with the same region 0 (R171). -/
theorem loaded_unique {x z : Vector Byte 48} {b : Vector Byte 16} (h0 : ∀ i : Fin 16, z[i.val] = x[i.val])
    (h1 : ∀ i : Fin 16, z[16 + i.val] = b[i.val]) (h2 : ∀ i : Fin 16, z[32 + i.val] = b[i.val] ^^^ z[i.val]) :
    xorRegions (copyBlock b x) = z :=
  regions_ext (fun i => ((loaded_get b x i).1).trans (h0 i).symm)
    (fun i => ((loaded_get b x i).2.1).trans (h1 i).symm)
    (fun i => by rw [(loaded_get b x i).2.2, h2 i, h0 i])

/-! ### A pass -/

/-- The digest state and running value of R108 after `j` rounds and `k` positions. -/
def mixAt (cfg : Config) (a : Mix) (j k : Nat) : Mix :=
  ((List.finRange 48).take k).foldl (mixByte cfg) (((List.finRange 18).take j).foldl (mixRound cfg) a)

theorem mixAt_zero (cfg : Config) (a : Mix) : mixAt cfg a 0 0 = a := by simp [mixAt]

theorem mixAt_position (cfg : Config) (a : Mix) (j : Nat) (k : Fin 48) :
    mixAt cfg a j (k.val + 1) = mixByte cfg (mixAt cfg a j k.val) k := by
  simp [mixAt, finRange_take_succ k.val k.isLt]

/-- The end of round j: its last position, then T has j added. -/
theorem mixAt_round (cfg : Config) (a : Mix) (j : Fin 18) (k : Fin 48) (hk : k.val + 1 = 48) :
    mixAt cfg a (j.val + 1) 0 =
      { X := (mixByte cfg (mixAt cfg a j.val k.val) k).X,
        T := addRound (mixByte cfg (mixAt cfg a j.val k.val) k).T j } := by
  have h : mixByte cfg (mixAt cfg a j.val k.val) k = mixAt cfg a j.val 48 :=
    (mixAt_position cfg a j.val k).symm.trans (congrArg (mixAt cfg a j.val) hk)
  have h' : mixAt cfg a (j.val + 1) 0 = mixRound cfg (((List.finRange 18).take j.val).foldl (mixRound cfg) a) j := by
    simp only [mixAt, finRange_take_succ j.val j.isLt, List.foldl_append, List.take_zero, List.foldl_nil, List.foldl_cons]
  rw [h, h', mixAt, finRange_take_all]
  simp only [mixRound]

theorem compress_eq (cfg : Config) (x : Vector Byte 48) (b : Vector Byte 16) :
    compress cfg x b = (mixAt cfg { X := xorRegions (copyBlock b x), T := 0 } 18 0).X := by
  rw [compress, mixAt, finRange_take_all, List.take_zero, List.foldl_nil]

/-- Where a pass stands: the registers X and T are R108's after J rounds and K positions from `a`. -/
def PassAt (s : State) (a : Mix) : Prop := { X := s.X, T := s.T : Mix } = mixAt s.cfg a s.J.val s.K.val

/-- The position a MIX_STEP mixes, in the terms of R108. -/
theorem mixByte_pass (s : State) (a : Mix) (h : PassAt s a) :
    mixByte s.cfg (mixAt s.cfg a s.J.val s.K.val) s.K =
      { X := s.X.set s.K.val (s.X[s.K.val] ^^^ tableEntry s.cfg s.T), T := s.X[s.K.val] ^^^ tableEntry s.cfg s.T } := by
  unfold PassAt at h
  rw [← h]
  rfl

/-- A MIX_STEP that does not end the pass keeps it going (R175). -/
theorem mixStep_pass (s : State) (a : Mix) (h : PassAt s a) (hne : ¬(s.K = 47 ∧ s.J = 17)) : PassAt (mixStep s) a := by
  have hb := mixByte_pass s a h
  unfold PassAt
  by_cases hk : s.K = 47
  · have hj : s.J ≠ 17 := fun e => hne ⟨hk, e⟩
    have hr := mixAt_round s.cfg a s.J s.K (by rw [hk]; rfl)
    rw [hb] at hr
    simp only [mixStep_eq, if_pos hk, if_neg hj, succ_J_val hj]
    exact hr.symm
  · simp only [mixStep_eq, if_neg hk, succ_K_val hk]
    rw [mixAt_position, hb]

/-- The MIX_STEP that ends a pass leaves the state of Compress (R176). -/
theorem mixStep_last (s : State) (a : Mix) (h : PassAt s a) (hk : s.K = 47) (hj : s.J = 17) :
    (mixStep s).X = (mixAt s.cfg a 18 0).X := by
  have hr := mixAt_round s.cfg a s.J s.K (by rw [hk]; rfl)
  rw [mixByte_pass s a h, show s.J.val + 1 = 18 by rw [hj]; rfl] at hr
  rw [hr]
  simp only [mixStep_eq, if_pos hk, if_pos hj]

end Sys2Proof.Machine
end

