-- ==== Sys2Proof/Laws/Tracking.lean ====
section
/-! SUPPORT. What the registers hold at every point of a run, in the terms of the reference function: the checksum of the bytes
taken so far (R26, R105), the block being loaded (R171), the pass running on it (R180), and how one step moves each on. -/

namespace Sys2Proof.Machine

/-! ### The checksum of a growing buffer -/

/-- The checksum accumulator after the bytes of a list, the first of them at position `p` of the buffer. -/
def csumFrom (cfg : Config) (a : Csum) (p : Nat) : List Byte → Csum
  | [] => a
  | c :: l => csumFrom cfg (checksumByte cfg a ⟨p % 16, Nat.mod_lt _ (by decide)⟩ c) (p + 1) l

/-- The checksum accumulator of a buffer of any length. -/
def csumOf (cfg : Config) (l : List Byte) : Csum := csumFrom cfg { C := Vector.replicate 16 0, L := 0 } 0 l

theorem csumFrom_append (cfg : Config) (a : Csum) (p : Nat) (l r : List Byte) :
    csumFrom cfg a p (l ++ r) = csumFrom cfg (csumFrom cfg a p l) (p + l.length) r := by
  induction l generalizing a p with
  | nil => rfl
  | cons c l ih =>
    rw [List.cons_append, csumFrom, ih, csumFrom, List.length_cons, Nat.add_assoc, Nat.add_comm 1]

theorem csumOf_snoc (cfg : Config) (l : List Byte) (c : Byte) (j : Fin 16) (hj : j.val = l.length % 16) :
    csumOf cfg (l ++ [c]) = checksumByte cfg (csumOf cfg l) j c := by
  rw [csumOf, csumFrom_append, csumFrom, csumFrom]
  have : (⟨(0 + l.length) % 16, Nat.mod_lt _ (by decide)⟩ : Fin 16) = j := Fin.ext (by simp [hj])
  rw [this]
  rfl

theorem take_bufferByte (l : List Byte) (i : Nat) (j : Fin 16) (h : 16 * i + j.val < l.length) :
    l.take (16 * i + j.val + 1) = l.take (16 * i + j.val) ++ [bufferByte l i j] := by
  rw [List.take_add_one, List.getElem?_eq_getElem h, bufferByte, List.getD_eq_getElem?_getD, List.getElem?_eq_getElem h]
  rfl

theorem checksumBlock_eq (cfg : Config) (pb : List Byte) (i : Nat) (h : 16 * i + 16 ≤ pb.length) :
    checksumBlock cfg pb (csumOf cfg (pb.take (16 * i))) i = csumOf cfg (pb.take (16 * (i + 1))) := by
  have key : ∀ k, k ≤ 16 →
      ((List.finRange 16).take k).foldl (fun a j => checksumByte cfg a j (bufferByte pb i j)) (csumOf cfg (pb.take (16 * i))) =
        csumOf cfg (pb.take (16 * i + k)) := by
    intro k
    induction k with
    | zero => intro _; rfl
    | succ k ih =>
      intro hk
      rw [finRange_take_succ k (by omega), List.foldl_append, ih (by omega), ← Nat.add_assoc,
        take_bufferByte pb i ⟨k, by omega⟩ (by show 16 * i + k < _; omega)]
      exact (csumOf_snoc cfg _ _ ⟨k, by omega⟩ (by simp; omega)).symm
  have := key 16 le_rfl
  rw [finRange_take_all] at this
  rw [checksumBlock, this, Nat.mul_add]

/-- On whole blocks, both loops of stage 2 are the one pass over the bytes (R105). -/
theorem checksumState_eq (cfg : Config) (pb : List Byte) (h : pb.length % 16 = 0) :
    checksumState cfg pb = csumOf cfg pb := by
  have key : ∀ q, 16 * q ≤ pb.length →
      (List.range q).foldl (checksumBlock cfg pb) { C := Vector.replicate 16 0, L := 0 } = csumOf cfg (pb.take (16 * q)) := by
    intro q
    induction q with
    | zero => intro _; rfl
    | succ q ih =>
      intro hq
      rw [List.range_succ, List.foldl_append, ih (by omega), List.foldl_cons, List.foldl_nil]
      exact checksumBlock_eq cfg pb q (by omega)
  rw [checksumState, key _ (by omega), List.take_of_length_le (by omega)]

/-! ### The blocks compressed so far -/

/-- The digest state after the first `q` blocks of a buffer (R110). -/
def blocksDone (cfg : Config) (l : List Byte) (q : Nat) : Vector Byte 48 :=
  (List.range q).foldl (fun x i => compress cfg x (bufferBlock l i)) (Vector.replicate 48 0)

theorem blocksDone_succ (cfg : Config) (l : List Byte) (q : Nat) :
    blocksDone cfg l (q + 1) = compress cfg (blocksDone cfg l q) (bufferBlock l q) := by
  rw [blocksDone, List.range_succ, List.foldl_append]
  rfl

theorem bufferByte_append (l r : List Byte) (i : Nat) (j : Fin 16) (h : 16 * i + j.val < l.length) :
    bufferByte (l ++ r) i j = bufferByte l i j := by
  rw [bufferByte, bufferByte, List.getD_eq_getElem?_getD, List.getD_eq_getElem?_getD, List.getElem?_append_left h]

theorem bufferByte_length (l : List Byte) (v : Byte) (j : Fin 16) (hj : j.val = l.length % 16) :
    bufferByte (l ++ [v]) (l.length / 16) j = v := by
  have : 16 * (l.length / 16) + j.val = l.length := by omega
  rw [bufferByte, this]
  simp

theorem blocksDone_append (cfg : Config) (l r : List Byte) (q : Nat) (h : 16 * q ≤ l.length) :
    blocksDone cfg (l ++ r) q = blocksDone cfg l q := by
  induction q with
  | zero => rw [blocksDone, blocksDone, List.range_zero, List.foldl_nil, List.foldl_nil]
  | succ q ih =>
    have hb : bufferBlock (l ++ r) q = bufferBlock l q := by
      apply Vector.ext
      intro j hj
      simp only [bufferBlock, Vector.getElem_ofFn]
      exact bufferByte_append l r q ⟨j, hj⟩ (by show 16 * q + j < _; omega)
    rw [blocksDone_succ, blocksDone_succ, ih (by omega), hb]

/-! ### Loading a block, and the pass on it -/

/-- The bytes of `buf` have been loaded and its whole blocks compressed; POS bytes of the next block stand in X (R171). -/
structure Loading (s : State) (buf : List Byte) : Prop where
  pos : s.POS.val = buf.length % 16
  r0 : ∀ i : Fin 16, s.X[i.val] = (blocksDone s.cfg buf (buf.length / 16))[i.val]
  r1 : ∀ i : Fin 16, i.val < s.POS.val → s.X[16 + i.val] = bufferByte buf (buf.length / 16) i
  r2 : ∀ i : Fin 16, i.val < s.POS.val → s.X[32 + i.val] = s.X[16 + i.val] ^^^ s.X[i.val]

/-- `buf` is whole blocks, and the pass on its last block is at round J, position K. -/
structure Passing (s : State) (buf : List Byte) : Prop where
  whole : buf.length % 16 = 0
  some_block : 16 ≤ buf.length
  pos : s.POS = 0
  pass : PassAt s {
    X := xorRegions (copyBlock (bufferBlock buf (buf.length / 16 - 1)) (blocksDone s.cfg buf (buf.length / 16 - 1)))
    T := 0 }

/-- A loaded byte either goes on with the block or, after position 15, starts the pass on it (R135, R152, R178). -/
theorem Loading.load {s u : State} {buf : List Byte} (v : Byte) (k : Kind) (h : Loading s buf)
    (hX : u.X = (loadByte v s).X) (hP : u.POS = s.POS) (hc : u.cfg = s.cfg) :
    (s.POS ≠ 15 → Loading (advancePos k u) (buf ++ [v])) ∧ (s.POS = 15 → Passing (advancePos k u) (buf ++ [v])) := by
  have hp := h.pos
  have hp16 := s.POS.isLt
  rw [loadByte_X] at hX
  have g0 : ∀ i : Fin 16, u.X[i.val] = s.X[i.val] := by
    intro i
    simp [hX, show ¬32 + s.POS.val = i.val by omega, show ¬16 + s.POS.val = i.val by omega]
  have g1 : ∀ i : Fin 16, i.val < s.POS.val → u.X[16 + i.val] = s.X[16 + i.val] := by
    intro i hi
    simp [hX, show ¬32 + s.POS.val = 16 + i.val by omega, show ¬s.POS.val = i.val by omega]
  have g1' : ∀ i : Fin 16, i.val = s.POS.val → u.X[16 + i.val] = v := by
    intro i hi
    simp [hX, hi]
  have g2 : ∀ i : Fin 16, i.val < s.POS.val → u.X[32 + i.val] = s.X[32 + i.val] := by
    intro i hi
    simp [hX, show ¬s.POS.val = i.val by omega, show ¬16 + s.POS.val = 32 + i.val by omega]
  have g2' : ∀ i : Fin 16, i.val = s.POS.val → u.X[32 + i.val] = v ^^^ s.X[i.val] := by
    intro i hi
    simp [hX, hi]
  have hb : ∀ i : Fin 16, i.val ≤ s.POS.val → u.X[16 + i.val] = bufferByte (buf ++ [v]) (buf.length / 16) i := by
    intro i hi
    by_cases hlt : i.val < s.POS.val
    · rw [g1 i hlt, h.r1 i hlt, bufferByte_append _ _ _ _ (by omega)]
    · have hi' : i.val = s.POS.val := by omega
      rw [g1' i hi', bufferByte_length _ _ _ (by omega)]
  have hx : ∀ i : Fin 16, i.val ≤ s.POS.val → u.X[32 + i.val] = u.X[16 + i.val] ^^^ u.X[i.val] := by
    intro i hi
    by_cases hlt : i.val < s.POS.val
    · rw [g2 i hlt, h.r2 i hlt, g1 i hlt, g0 i]
    · have hi' : i.val = s.POS.val := by omega
      rw [g2' i hi', g1' i hi', g0 i]
  have hr : ∀ i : Fin 16, u.X[i.val] = (blocksDone s.cfg (buf ++ [v]) (buf.length / 16))[i.val] := by
    intro i
    rw [blocksDone_append _ _ _ _ (by omega), g0, h.r0]
  constructor
  · intro h15
    have hs := succ_pos_val h15
    have hn15 := mt (eq_fifteen_iff s.POS).mpr h15
    have hq : (buf ++ [v]).length / 16 = buf.length / 16 := by simp; omega
    have hm : (buf ++ [v]).length % 16 = s.POS.val + 1 := by simp; omega
    have e : advancePos k u = { u with POS := u.POS + 1 } := by rw [advancePos_eq, hP, if_neg h15]
    rw [e]
    constructor
    · show (u.POS + 1).val = _
      rw [hP, hs, hm]
    · intro i
      show u.X[i.val] = (blocksDone u.cfg _ _)[i.val]
      rw [hq, hc, hr]
    · intro i hi
      rw [hq]
      exact hb i (by change i.val < (u.POS + 1).val at hi; rw [hP, hs] at hi; omega)
    · intro i hi
      exact hx i (by change i.val < (u.POS + 1).val at hi; rw [hP, hs] at hi; omega)
  · intro h15
    have hv := (eq_fifteen_iff s.POS).mp h15
    have hl : (buf ++ [v]).length = buf.length + 1 := by simp
    have hq : (buf ++ [v]).length / 16 - 1 = buf.length / 16 := by omega
    have e : advancePos k u = { u with POS := 0, PHASE := .mix, KIND := k, T := 0, J := 0, K := 0 } := by
      rw [advancePos_eq, hP, if_pos h15]
    rw [e]
    refine ⟨by omega, by omega, rfl, ?_⟩
    unfold PassAt
    rw [hq]
    show { X := u.X, T := 0 : Mix } = mixAt u.cfg _ 0 0
    have hz : xorRegions (copyBlock (bufferBlock (buf ++ [v]) (buf.length / 16))
        (blocksDone s.cfg (buf ++ [v]) (buf.length / 16))) = u.X := by
      refine loaded_unique (fun i => hr i) (fun i => ?_) (fun i => ?_)
      · rw [hb i (by omega)]
        simp [bufferBlock]
      · rw [hx i (by omega), hb i (by omega)]
        simp [bufferBlock]
    rw [mixAt_zero, hc, hz]

/-- A MIX_STEP goes on with the pass or ends it with the block compressed (R175, R176, R180). -/
theorem Passing.mix {s : State} {buf : List Byte} (h : Passing s buf) :
    (¬(s.K = 47 ∧ s.J = 17) → Passing (mixStep s) buf) ∧
    (s.K = 47 ∧ s.J = 17 →
      (mixStep s).X = blocksDone s.cfg buf (buf.length / 16) ∧ Loading (mixStep s) buf) := by
  constructor
  · intro hne
    refine ⟨h.whole, h.some_block, by rw [mixStep_POS]; exact h.pos, ?_⟩
    rw [mixStep_cfg]
    exact mixStep_pass s _ h.pass hne
  · intro hk
    have hw := h.whole
    have hs := h.some_block
    have hX : (mixStep s).X = blocksDone s.cfg buf (buf.length / 16) := by
      rw [mixStep_last s _ h.pass hk.1 hk.2, ← compress_eq, ← blocksDone_succ,
        show buf.length / 16 - 1 + 1 = buf.length / 16 by omega]
    have hP : (mixStep s).POS.val = 0 := by rw [mixStep_POS, h.pos]; rfl
    refine ⟨hX, by rw [hP]; omega, ?_, ?_, ?_⟩
    · intro i
      rw [hX, mixStep_cfg]
    · intro i hi
      omega
    · intro i hi
      omega

end Sys2Proof.Machine
end

