-- ==== Sys2Proof/Laws/Message.lean ====
section
/-! SUPPORT. The state of the core as a function of the message of the run (R136): `Track` says, phase by phase, what the
registers hold once INIT has opened a message, and every step keeps it (R160, R182). -/

namespace Sys2Proof.Machine

/-- C and CL are the checksum accumulator of a buffer (R26, R105). -/
def Summed (s : State) (buf : List Byte) : Prop := ({ C := s.C, L := s.CL } : Csum) = csumOf s.cfg buf

/-- The padding byte of a message, as stage 1 writes it (R103). -/
def padByteOf (m : List Byte) : Byte := BitVec.ofNat 8 (paddingLength m.length)

/-- What the registers hold for a message, phase by phase. -/
def Track (s : State) (m : List Byte) : Prop :=
  match s.PHASE with
  | .idle => False
  | .absorb => Summed s m ∧ s.CNT = m.length ∧ Loading s m
  | .pad => ∃ k, k < paddingLength m.length ∧ s.PADV.val = paddingLength m.length ∧
      Summed s (m ++ List.replicate k (padByteOf m)) ∧ Loading s (m ++ List.replicate k (padByteOf m))
  | .mix =>
    match s.KIND with
    | .msg => Summed s m ∧ s.CNT = m.length ∧ Passing s m
    | .pad => Summed s (pad m) ∧ Passing s (pad m)
    | .csum => Summed s (pad m) ∧ Passing s (augmented s.cfg m)
  | .feedc => Summed s (pad m) ∧ Loading s (pad m ++ s.C.toList.take s.POS.val)
  | .done => Summed s (pad m) ∧ s.X = blocksDone s.cfg (augmented s.cfg m) ((augmented s.cfg m).length / 16)

/-- `Track` for the message of a run: nothing is claimed while no INIT of the run has opened one. -/
def Tracked (s : State) : Option (List Byte) → Prop
  | none => True
  | some m => Track s m

/-! What `Track` says in each phase. -/

section Phases

variable {s : State} {m : List Byte}

theorem track_idle (h : s.PHASE = .idle) : ¬Track s m := by simp [Track, h]

theorem track_absorb (h : s.PHASE = .absorb) : Track s m ↔ Summed s m ∧ s.CNT = m.length ∧ Loading s m := by
  simp [Track, h]

theorem track_pad (h : s.PHASE = .pad) :
    Track s m ↔ ∃ k, k < paddingLength m.length ∧ s.PADV.val = paddingLength m.length ∧
      Summed s (m ++ List.replicate k (padByteOf m)) ∧ Loading s (m ++ List.replicate k (padByteOf m)) := by
  simp [Track, h]

theorem track_msg (h : s.PHASE = .mix) (hk : s.KIND = .msg) :
    Track s m ↔ Summed s m ∧ s.CNT = m.length ∧ Passing s m := by
  simp [Track, h, hk]

theorem track_padded (h : s.PHASE = .mix) (hk : s.KIND = .pad) : Track s m ↔ Summed s (pad m) ∧ Passing s (pad m) := by
  simp [Track, h, hk]

theorem track_csum (h : s.PHASE = .mix) (hk : s.KIND = .csum) :
    Track s m ↔ Summed s (pad m) ∧ Passing s (augmented s.cfg m) := by
  simp [Track, h, hk]

theorem track_feedc (h : s.PHASE = .feedc) :
    Track s m ↔ Summed s (pad m) ∧ Loading s (pad m ++ s.C.toList.take s.POS.val) := by
  simp [Track, h]

theorem track_done (h : s.PHASE = .done) :
    Track s m ↔ Summed s (pad m) ∧ s.X = blocksDone s.cfg (augmented s.cfg m) ((augmented s.cfg m).length / 16) := by
  simp [Track, h]

end Phases

/-! ### Lengths -/

theorem pad_length (m : List Byte) : (pad m).length = m.length + paddingLength m.length := by simp [pad]

theorem pad_length_mod (m : List Byte) : (pad m).length % 16 = 0 := by
  rw [pad_length]
  unfold paddingLength
  omega

theorem checksum_of_summed {s : State} {m : List Byte} (h : Summed s (pad m)) : s.C = checksum s.cfg (pad m) := by
  unfold Summed at h
  rw [checksum, checksumState_eq _ _ (pad_length_mod m), ← h]

/-! ### A byte into the checksum -/

/-- CsumStep adds one byte to the buffer summed (R157, R105). -/
theorem Summed.byte {s t : State} {buf : List Byte} (c : Byte) (h : Summed s buf) (hp : s.POS.val = buf.length % 16)
    (hC : t.C = (csumStep c s).C) (hL : t.CL = (csumStep c s).CL) (hc : t.cfg = s.cfg) : Summed t (buf ++ [c]) := by
  unfold Summed at h ⊢
  rw [hc, csumOf_snoc s.cfg buf c s.POS hp, ← h, hC, hL]
  simp [checksumByte, csumStep, setC, getC]

/-! ### One step -/

variable {s t : State}

theorem track_nothing {m : List Byte} (h : Track s m) (h1 : t.cfg = s.cfg) (h2 : t.X = s.X) (h3 : t.C = s.C) (h4 : t.CL = s.CL)
    (h5 : t.T = s.T) (h6 : t.POS = s.POS) (h7 : t.CNT = s.CNT) (h8 : t.PADV = s.PADV) (h9 : t.J = s.J) (h10 : t.K = s.K)
    (h11 : t.PHASE = s.PHASE) (h12 : t.KIND = s.KIND) : Track t m := by
  obtain ⟨cfg, X, C, CL, T, POS, CNT, PADV, J, K, PHASE, KIND, a, b, c, host⟩ := t
  simp only at h1 h2 h3 h4 h5 h6 h7 h8 h9 h10 h11 h12
  subst h1 h2 h3 h4 h5 h6 h7 h8 h9 h10 h11 h12
  unfold Track at h ⊢
  cases hp : s.PHASE <;> rw [hp] at h
  · exact h
  · exact ⟨h.1, h.2.1, h.2.2.pos, h.2.2.r0, h.2.2.r1, h.2.2.r2⟩
  · obtain ⟨k, a, b, c, d⟩ := h
    exact ⟨k, a, b, c, d.pos, d.r0, d.r1, d.r2⟩
  · cases hk : s.KIND <;> rw [hk] at h
    · exact ⟨h.1, h.2.1, h.2.2.whole, h.2.2.some_block, h.2.2.pos, h.2.2.pass⟩
    · exact ⟨h.1, h.2.whole, h.2.some_block, h.2.pos, h.2.pass⟩
    · exact ⟨h.1, h.2.whole, h.2.some_block, h.2.pos, h.2.pass⟩
  · exact ⟨h.1, h.2.pos, h.2.r0, h.2.r1, h.2.r2⟩
  · exact h

theorem csumOf_nil (cfg : Config) : csumOf cfg [] = { C := Vector.replicate 16 0, L := 0 } := by rw [csumOf, csumFrom]

/-- INIT opens the empty message (R133). -/
theorem track_init (hs : State) : Track { clearRegisters hs with PHASE := .absorb } [] := by
  refine ⟨(csumOf_nil _).symm, rfl, rfl, fun i => ?_, fun i hi => ?_, fun i hi => ?_⟩
  · simp [blocksDone]
  · exact absurd hi (by simp)
  · exact absurd hi (by simp)

/-- The phase and kind after a byte load (R135, R152, R178). -/
theorem advancePos_go (k : Kind) (u : State) (h : u.POS ≠ 15) :
    (advancePos k u).PHASE = u.PHASE ∧ (advancePos k u).KIND = u.KIND ∧ (advancePos k u).POS = u.POS + 1 := by
  simp [advancePos_eq, h]

theorem advancePos_wrap (k : Kind) (u : State) (h : u.POS = 15) :
    (advancePos k u).PHASE = .mix ∧ (advancePos k u).KIND = k ∧ (advancePos k u).POS = 0 := by
  simp [advancePos_eq, h]

/-- An error-free ABSORB appends its byte (R135). -/
theorem track_byte {m : List Byte} (d : Byte) (hp : s.PHASE = .absorb) (h : Track s m) :
    Track (advancePos .msg { loadByte d (csumStep d s) with CNT := s.CNT + 1 }) (m ++ [d]) := by
  obtain ⟨h1, h2, h3⟩ := (track_absorb hp).mp h
  obtain ⟨l1, l2⟩ := h3.load (u := { loadByte d (csumStep d s) with CNT := s.CNT + 1 }) d .msg (by simp) (by simp) (by simp)
  have hsum : Summed (advancePos .msg { loadByte d (csumStep d s) with CNT := s.CNT + 1 }) (m ++ [d]) :=
    h1.byte d h3.pos (by simp) (by simp) (by simp)
  by_cases h15 : s.POS = 15
  · obtain ⟨p1, p2, -⟩ := advancePos_wrap .msg { loadByte d (csumStep d s) with CNT := s.CNT + 1 } (by simpa using h15)
    exact (track_msg p1 p2).mpr ⟨hsum, by simp [h2], l2 h15⟩
  · obtain ⟨p1, -, -⟩ := advancePos_go .msg { loadByte d (csumStep d s) with CNT := s.CNT + 1 } (by simpa using h15)
    exact (track_absorb (p1.trans (by simpa using hp))).mpr ⟨hsum, by simp [h2], l1 h15⟩

/-- FINISH latches the padding length of the message (R137, R102). -/
theorem track_finish {m : List Byte} (hp : s.PHASE = .absorb) (h : Track s m) :
    Track { s with PADV := padLeft s.POS, PHASE := .pad } m := by
  obtain ⟨h1, h2, h3⟩ := (track_absorb hp).mp h
  have := h3.pos
  have := s.POS.isLt
  refine (track_pad rfl).mpr ⟨0, ?_, ?_, ?_, ?_⟩
  · unfold paddingLength; omega
  · show 16 - s.POS.val = paddingLength m.length
    unfold paddingLength; omega
  · rw [List.replicate_zero, List.append_nil]
    exact h1
  · rw [List.replicate_zero, List.append_nil]
    exact ⟨h3.pos, h3.r0, h3.r1, h3.r2⟩

/-- PAD_STEP appends a padding byte; the last one completes Pad(m) (R152, R153). -/
theorem track_padStep {m : List Byte} (hp : s.PHASE = .pad) (h : Track s m) : Track (padStep s) m := by
  obtain ⟨k, hk, hv, h1, h2⟩ := (track_pad hp).mp h
  have hb : padByte s = padByteOf m := by rw [padByte, hv]; rfl
  have hbuf : m ++ List.replicate k (padByteOf m) ++ [padByteOf m] = m ++ List.replicate (k + 1) (padByteOf m) := by
    rw [List.append_assoc, ← List.replicate_succ']
  have hlen : s.POS.val = (m.length + k) % 16 := by rw [h2.pos]; simp
  obtain ⟨l1, l2⟩ := h2.load (u := loadByte (padByte s) (csumStep (padByte s) s)) (padByte s) .pad (by simp) (by simp) (by simp)
  have hsum : Summed (padStep s) (m ++ List.replicate k (padByteOf m) ++ [padByte s]) :=
    h1.byte (padByte s) h2.pos (by simp [padStep]) (by simp [padStep]) (by simp [padStep])
  rw [hb, hbuf] at l1 l2 hsum
  by_cases h15 : s.POS = 15
  · have hv15 := (eq_fifteen_iff s.POS).mp h15
    have hpl : k + 1 = paddingLength m.length := by unfold paddingLength at hk ⊢; omega
    obtain ⟨p1, p2, -⟩ := advancePos_wrap .pad (loadByte (padByte s) (csumStep (padByte s) s)) (by simpa using h15)
    have l := l2 h15
    rw [hpl] at l hsum
    refine (track_padded (s := padStep s) p1 p2).mpr ⟨hsum, ?_⟩
    rw [padStep, hb]
    exact l
  · have hv15 := mt (eq_fifteen_iff s.POS).mpr h15
    obtain ⟨p1, -, -⟩ := advancePos_go .pad (loadByte (padByte s) (csumStep (padByte s) s)) (by simpa using h15)
    refine (track_pad (s := padStep s) (p1.trans (by simpa using hp))).mpr ⟨k + 1, ?_, ?_, hsum, ?_⟩
    · unfold paddingLength at hk ⊢; omega
    · simpa [padStep] using hv
    · rw [padStep, hb]
      exact l1 h15

/-- FEEDC_STEP appends a checksum byte; the last one completes the augmented buffer (R178, R106). -/
theorem track_feedcStep {m : List Byte} (hp : s.PHASE = .feedc) (h : Track s m) : Track (feedcStep s) m := by
  obtain ⟨h1, h2⟩ := (track_feedc hp).mp h
  have hc := checksum_of_summed h1
  obtain ⟨l1, l2⟩ := h2.load (u := loadByte (getC s s.POS) s) (getC s s.POS) .csum (by simp) (by simp) (by simp)
  have hbuf : pad m ++ s.C.toList.take s.POS.val ++ [getC s s.POS] = pad m ++ s.C.toList.take (s.POS.val + 1) := by
    rw [List.append_assoc, List.take_add_one, List.getElem?_eq_getElem (by simp)]
    simp [getC]
  have hsum : Summed (feedcStep s) (pad m) := by
    unfold Summed at h1 ⊢
    simpa [feedcStep] using h1
  rw [hbuf] at l1 l2
  by_cases h15 : s.POS = 15
  · obtain ⟨p1, p2, -⟩ := advancePos_wrap .csum (loadByte (getC s s.POS) s) (by simpa using h15)
    refine (track_csum (s := feedcStep s) p1 p2).mpr ⟨hsum, ?_⟩
    have : augmented (feedcStep s).cfg m = pad m ++ s.C.toList.take (s.POS.val + 1) := by
      rw [(eq_fifteen_iff s.POS).mp h15, List.take_of_length_le (by simp), hc]
      simp [augmented, feedcStep]
    rw [this]
    exact l2 h15
  · obtain ⟨p1, -, p3⟩ := advancePos_go .csum (loadByte (getC s s.POS) s) (by simpa using h15)
    refine (track_feedc (s := feedcStep s) (p1.trans (by simpa using hp))).mpr ⟨hsum, ?_⟩
    have e : (feedcStep s).C.toList.take (feedcStep s).POS.val = s.C.toList.take (s.POS.val + 1) := by
      have : (feedcStep s).POS.val = s.POS.val + 1 := by
        rw [feedcStep, p3, loadByte_POS, succ_pos_val h15]
      rw [this]
      simp [feedcStep]
    rw [e]
    exact l1 h15

/-- MIX_STEP goes on with the pass, or ends it in the next phase (R175, R176). -/
theorem track_mixStep {m : List Byte} (hp : s.PHASE = .mix) (h : Track s m) : Track (mixStep s) m := by
  have hph := mixStep_PHASE s hp
  have sum : ∀ buf, Summed s buf → Summed (mixStep s) buf := by
    intro buf h
    unfold Summed at h ⊢
    rw [mixStep_C, mixStep_CL, mixStep_cfg]
    exact h
  cases hk : s.KIND with
  | msg =>
    obtain ⟨h1, h2, h3⟩ := (track_msg hp hk).mp h
    by_cases hl : s.K = 47 ∧ s.J = 17
    · rw [if_pos hl, hk] at hph
      exact (track_absorb hph).mpr ⟨sum _ h1, by rw [mixStep_CNT, h2], (h3.mix.2 hl).2⟩
    · rw [if_neg hl] at hph
      exact (track_msg hph (by rw [mixStep_KIND, hk])).mpr ⟨sum _ h1, by rw [mixStep_CNT, h2], h3.mix.1 hl⟩
  | pad =>
    obtain ⟨h1, h3⟩ := (track_padded hp hk).mp h
    by_cases hl : s.K = 47 ∧ s.J = 17
    · rw [if_pos hl, hk] at hph
      refine (track_feedc hph).mpr ⟨sum _ h1, ?_⟩
      have : (mixStep s).POS.val = 0 := by rw [mixStep_POS, h3.pos]; rfl
      rw [this, List.take_zero, List.append_nil]
      exact (h3.mix.2 hl).2
    · rw [if_neg hl] at hph
      exact (track_padded hph (by rw [mixStep_KIND, hk])).mpr ⟨sum _ h1, h3.mix.1 hl⟩
  | csum =>
    obtain ⟨h1, h3⟩ := (track_csum hp hk).mp h
    by_cases hl : s.K = 47 ∧ s.J = 17
    · rw [if_pos hl, hk] at hph
      refine (track_done hph).mpr ⟨sum _ h1, ?_⟩
      rw [mixStep_cfg]
      exact (h3.mix.2 hl).1
    · rw [if_neg hl] at hph
      refine (track_csum hph (by rw [mixStep_KIND, hk])).mpr ⟨sum _ h1, ?_⟩
      rw [mixStep_cfg]
      exact h3.mix.1 hl

/-- Every step keeps the registers in step with the message (R136, R182). -/
theorem tracked_step {m : Option (List Byte)} (h : Tracked s m) (hs : step s = .next t) : Tracked t (messageAfter s m) := by
  have same : ∀ {m}, Tracked s m → Tracked (hostMoved s) m := by
    intro m h
    cases m with
    | none => trivial
    | some m => exact track_nothing h rfl rfl rfl rfl rfl rfl rfl rfl rfl rfl rfl rfl
  refine step_elim s hs _ ?_ ?_ ?_ ?_ ?_ ?_ ?_ ?_ ?_ ?_ ?_ ?_
  · intro hr _ _
    simp [messageAfter, hr, Tracked]
  · intro hr _ ha e
    simp only [messageAfter, hr, ha, e]
    exact same h
  · intro hr _ ha e
    simp only [messageAfter, hr, ha, e]
    exact same h
  · intro hr _ ha e
    simp only [messageAfter, hr, ha, e]
    exact track_init _
  · intro hr _ ⟨ha, hp⟩ e
    have e' : messageAfter s m = m := by rcases ha with ⟨d, ha⟩ | ha <;> simp [messageAfter, hr, ha, absorbRaises, hp]
    rw [e', e]
    cases m with
    | none => trivial
    | some m => exact track_nothing h rfl rfl rfl rfl rfl rfl rfl rfl rfl rfl rfl rfl
  · intro hr _ hf ⟨d, ha⟩ e
    have e' : messageAfter s m = m := by simp [messageAfter, hr, ha, absorbRaises, hf]
    rw [e', e]
    cases m with
    | none => trivial
    | some m => exact track_nothing h rfl rfl rfl rfl rfl rfl rfl rfl rfl rfl rfl rfl
  · intro d hr hp hf ha e
    have e' : messageAfter s m = m.map (· ++ [d]) := by simp [messageAfter, hr, ha, absorbRaises, hp, hf]
    rw [e', e]
    cases m with
    | none => trivial
    | some m => exact track_byte (s := hostMoved s) d hp (same h)
  · intro hr hp ha e
    have e' : messageAfter s m = m := by simp [messageAfter, hr, ha]
    rw [e', e]
    cases m with
    | none => trivial
    | some m => exact track_finish (s := hostMoved s) hp (same h)
  · intro hr _ ⟨i, hi, ha⟩ e
    have e' : messageAfter s m = m := by rcases hi with ⟨_, hi⟩ | ⟨_, hi⟩ <;> simp [messageAfter, hr, ha, hi]
    rw [e', e]
    cases m with
    | none => trivial
    | some m => exact track_nothing h rfl rfl rfl rfl rfl rfl rfl rfl rfl rfl rfl rfl
  · intro hr hp ha e
    have e' : messageAfter s m = m := by simp [messageAfter, hr, ha]
    rw [e', e]
    cases m with
    | none => trivial
    | some m => exact track_padStep (s := hostMoved s) hp (same h)
  · intro hr hp ha e
    have e' : messageAfter s m = m := by simp [messageAfter, hr, ha]
    rw [e', e]
    cases m with
    | none => trivial
    | some m => exact track_mixStep (s := hostMoved s) hp (same h)
  · intro hr hp ha e
    have e' : messageAfter s m = m := by simp [messageAfter, hr, ha]
    rw [e', e]
    cases m with
    | none => trivial
    | some m => exact track_feedcStep (s := hostMoved s) hp (same h)

/-- Every run keeps them in step. -/
theorem tracked_run {m : Option (List Byte)} (n : Nat) (h : Tracked s m) (hr : run n s = .next t) :
    Tracked t (messageOf n s m) := by
  induction n generalizing s m with
  | zero =>
    cases hr
    exact h
  | succ n ih =>
    obtain ⟨u, hu⟩ := step_completes s
    rw [run_succ s n hu] at hr
    simp only [messageOf, hu]
    exact ih (tracked_step h hu) hr

end Sys2Proof.Machine
end

