-- ==== Sys2Proof/Laws/PerInstr.lean ====
section
/-! SUPPORT. Statements made for every command as syntax, one lemma per constructor (LAWS.json). -/

namespace Sys2Proof.Laws.RoundTrip

/-- Decoding the encoding of a well-formed command gives it back (R72 to R74). -/
def Statement (i : Sys2Proof.Instr) : Prop := i.wellFormed = true → Sys2Proof.decode (Sys2Proof.encode i) = i

theorem nop : Statement .nop := fun _ => by decide

theorem init : Statement .init := fun _ => by decide

theorem absorb (d : Sys2Proof.Byte) : Statement (.absorb d) := fun _ => by
  unfold Sys2Proof.decode
  rw [Sys2Proof.opField_encode, Sys2Proof.dataField_encode]
  rfl

theorem finish : Statement .finish := fun _ => by decide

theorem reservedLow (op : BitVec 4) : Statement (.reservedLow op) := by
  revert op
  unfold Statement
  decide

theorem reservedHigh (op : BitVec 4) : Statement (.reservedHigh op) := by
  revert op
  unfold Statement
  decide

end Sys2Proof.Laws.RoundTrip
end

