-- ==== Sys2Proof/Tests/Slice0.lean ====
section
/-! SUPPORT. Tests on fixed values, each with its source in spec/, and the witnesses that the hypotheses of every obligation can
be met, one for each clause at the boundary values. -/

namespace Sys2Proof.Tests

open Sys2Proof.Machine

/-! ## Helpers -/

/-- The state an answer holds; the core never stops, so the other two ways never occur. -/
def after : Answer → State
  | .next t => t
  | .fault _ => State.reset
  | .refused _ => State.reset

/-- The reset state moved to a phase. -/
def inPhase (p : Phase) : State := { State.reset with PHASE := p }

/-- A state whose host will do this next, and then nothing. -/
def doing (a : HostAct) (s : State) : State := { s with host := { s.host with acts := [a] } }

/-- The default table with another LENW, as in 95_test_vectors.md section 2.5. -/
def lenw4 : Config := { Config.default with LENW := 4, lenw_pos := by decide }

/-- An open message of 15 bytes with LENW = 4: CNT at its maximum. -/
def full : State := { inPhase .absorb with cfg := lenw4, CNT := 15, POS := 15 }

/-- A pass at round j, position k, with X[k] = x and T = t. -/
def mixing (kind : Kind) (j : Fin 18) (k : Fin 48) (x t : Byte) : State :=
  { inPhase .mix with KIND := kind, J := j, K := k, X := State.reset.X.set k.val x, T := t }

/-- The three flags (ERR_ILL, ERR_SEQ, ERR_LEN). -/
def flags (s : State) : Bool × Bool × Bool := (s.ERR_ILL, s.ERR_SEQ, s.ERR_LEN)

/-! ## Well-formedness: ill-formed terms are refused (R73, R75) -/

theorem test_wf_reservedLow_below : (Instr.reservedLow 3).wellFormed = false := by decide
theorem test_wf_reservedLow_above : (Instr.reservedLow 8).wellFormed = false := by decide
theorem test_wf_reservedHigh_below : (Instr.reservedHigh 7).wellFormed = false := by decide
theorem test_wf_bounds :
    (Instr.reservedLow 4).wellFormed = true ∧ (Instr.reservedLow 7).wellFormed = true ∧
    (Instr.reservedHigh 8).wellFormed = true ∧ (Instr.reservedHigh 15).wellFormed = true := by decide
theorem test_wf_absorb : (Instr.absorb 0xff).wellFormed = true ∧ Instr.nop.wellFormed = true := by decide

/-! ## Decoding: words written out from 30_encoding.md sections 1 and 3, op in bits 11..8 -/

theorem test_decode_nop : decode 0b0000_00000000#12 = .nop ∧ decode 0b0000_11111111#12 = .nop := by decide
theorem test_decode_init : decode 0b0001_00000000#12 = .init ∧ decode 0b0001_11111111#12 = .init := by decide
/-- 95_test_vectors.md P2: ABSORB 'a' is 0x261. -/
theorem test_decode_absorb : decode 0b0010_01100001#12 = .absorb 0x61 ∧ decode 0b0010_10000000#12 = .absorb 0x80 := by decide
/-- E15: 0x3AB is FINISH. -/
theorem test_decode_finish : decode 0b0011_00000000#12 = .finish ∧ decode 0b0011_10101011#12 = .finish := by decide
theorem test_decode_reservedLow : decode 0b0100_00000000#12 = .reservedLow 4 ∧ decode 0b0111_11111111#12 = .reservedLow 7 := by
  decide
/-- E12 and E6: 0x5AA and 0xF00 are reserved. -/
theorem test_decode_reservedHigh :
    decode 0b1000_00000000#12 = .reservedHigh 8 ∧ decode 0b1111_00000000#12 = .reservedHigh 15 := by decide
/-- The channel has 12 bits (R51). -/
theorem test_decode_too_wide : decodeNat 0x1000 = .error (.tooWide 0x1000) ∧ decodeTableWord 16 0x1100 = none := by decide
/-- R73's canonical words. -/
theorem test_encode :
    encode .nop = 0x000 ∧ encode .init = 0x100 ∧ encode (.absorb 0x61) = 0x261 ∧ encode .finish = 0x300 := by decide
theorem test_decodeTableWord : decodeTableWord 12 0x2ff = some (.absorb 0xff) ∧ decodeTableWord 16 0x300 = some .finish := by
  decide

/-! ## The table and the reference function -/

/-- 95_test_vectors.md section 2.0. -/
theorem test_table :
    (tableEntry Config.default 0x00, tableEntry Config.default 0x01, tableEntry Config.default 0x10,
      tableEntry Config.default 0x29) = (0x29, 0x2e, 0x62, 0x42) ∧
    (tableEntry Config.default 0x61, tableEntry Config.default 0x7b, tableEntry Config.default 0x80,
      tableEntry Config.default 0xff) = (0x19, 0xe2, 0x45, 0x14) := by decide +kernel

/-- 95_test_vectors.md section 2.4, Checksum(Pad([])). -/
theorem test_checksum_empty :
    (checksum Config.default (pad [])).toList =
      [0x62, 0x38, 0x67, 0xb6, 0xaf, 0x52, 0x79, 0x5e, 0x5f, 0x21, 0x4e, 0x97, 0x20, 0xbe, 0xea, 0x8d] := by decide +kernel

/-- 95_test_vectors.md section 2.2: round 0 of the empty message's pad block ends with X[47] = 0xa5 and T = 0xa5. -/
theorem test_mixRound :
    (let a := mixRound Config.default { X := xorRegions (copyBlock (Vector.replicate 16 0x10) State.reset.X), T := 0 } 0
     (a.X[0], a.X[1], a.X[2], a.X[47], a.T)) = (0x29, 0x42, 0x79, 0xa5, 0xa5) := by decide +kernel

/-- 95_test_vectors.md section 1.2, S10: the first bytes of Digest([]) as text. -/
theorem test_hexText :
    (hexText ((Vector.replicate 16 0).set 0 0x83 |>.set 1 0x50 |>.set 2 0xe5)).take 6 = ['8', '3', '5', '0', 'e', '5'] := by
  decide

/-! ## The commands, one step each -/

/-- E7: NOP keeps the flag and the phase. -/
theorem test_nop : statusPort (after (exec .nop { inPhase .absorb with ERR_ILL := true })) = 0x14 := by decide
/-- E13: in DONE too. -/
theorem test_nop_done :
    statusPort (after (exec .nop { inPhase .done with ERR_ILL := true, ERR_SEQ := true })) = 0x32 := by decide

/-- E5. -/
theorem test_init : statusPort (after (exec .init { inPhase .idle with ERR_ILL := true, ERR_SEQ := true })) = 0x04 := by decide
/-- E14 and R134: X, C and the counters are gone, and dig_valid with them. -/
theorem test_init_clears :
    (let t := after (exec .init { full with PHASE := .done, KIND := .csum, CL := 0xb9, PADV := 1, X := Vector.replicate 48 7 })
     ((t.CL, t.CNT, t.POS, t.PADV), (t.KIND, t.X[0], t.X[47], digValid t))) = ((0, 0, 0, 0), (.msg, 0, 0, false)) := by decide

/-- 95_test_vectors.md section 2.1, step 2 of the "abc" trace, from what step 1 leaves. -/
theorem test_absorb :
    (let s : State := { inPhase .absorb with
       C := State.reset.C.set 0 0x19, CL := 0x19, X := (State.reset.X.set 16 0x61).set 32 0x61, POS := 1, CNT := 1 }
     let t := after (exec (.absorb 0x62) s)
     ((t.C[0], t.C[1], t.CL, t.X[17], t.X[33]), (t.POS, t.CNT, statusPort t))) =
      ((0x19, 0xe2, 0xe2, 0x62, 0x62), (2, 2, 0x04)) := by decide +kernel
/-- 95_test_vectors.md section 2.5, LENW = 4, step 2: refused with ERR_LEN; and E10: in DONE it is ERR_SEQ, whatever CNT
holds. -/
theorem test_absorb_refused :
    (let t := after (exec (.absorb 0x41) full)
     (statusPort t, t.CNT, t.POS, t.X[31])) = (0x44, 15, 15, 0) ∧
    statusPort (after (exec (.absorb 0xff) { full with PHASE := .done })) = 0x22 := by decide +kernel

/-- 95_test_vectors.md section 2.1, step 4 of the "abc" trace. -/
theorem test_finish :
    (let t := after (exec .finish { inPhase .absorb with POS := 3, CNT := 3 })
     (t.PADV, t.PHASE, t.KIND, statusPort t)) = (13, .pad, .msg, 0x05) := by decide
/-- E3; and R137's corner cases POS = 0 and POS = 15. -/
theorem test_finish_cases :
    statusPort (after (exec .finish { inPhase .idle with ERR_SEQ := true })) = 0x20 ∧
    (after (exec .finish (inPhase .absorb))).PADV = 16 ∧ (after (exec .finish full)).PADV = 1 := by decide

/-- E4. -/
theorem test_reservedLow : statusPort (after (exec (decode 0x400) { inPhase .idle with ERR_SEQ := true })) = 0x30 := by decide
/-- E6. -/
theorem test_reservedHigh : statusPort (after (exec (decode 0xf00) (inPhase .absorb))) = 0x14 := by decide

/-! ## The micro-steps -/

/-- 95_test_vectors.md section 2.2, PAD_STEP 2 of the empty message. -/
theorem test_padStep :
    (let t := padStep { inPhase .pad with PADV := 16, C := State.reset.C.set 0 0x62, CL := 0x62, POS := 1 }
     (t.C[1], t.CL, t.X[17], t.X[33], t.POS)) = (0x38, 0x38, 0x10, 0x10, 2) := by decide +kernel
/-- 95_test_vectors.md section 2.2, round 0, positions 0 and 47 of the empty message's pad block. -/
theorem test_mixStep :
    (let t := mixStep (mixing .pad 0 0 0x00 0x00)
     (t.X[0], t.T, t.J, t.K, t.PHASE)) = (0x29, 0x29, 0, 1, .mix) ∧
    (let t := mixStep (mixing .pad 0 47 0x10 0x66)
     (t.X[47], t.T, t.J, t.K, t.PHASE)) = (0xa5, 0xa5, 1, 0, .mix) := by decide +kernel
/-- The same, round 1 (the sum takes the old J) and round 17 (the pass ends in FEEDC). -/
theorem test_mixStep_round_end :
    (let t := mixStep (mixing .pad 1 47 0xa5 0x08)
     (t.X[47], t.T, t.J, t.PHASE)) = (0x98, 0x99, 2, .mix) ∧
    (let t := mixStep (mixing .pad 17 47 0xe7 0x0b)
     (t.X[47], t.T, t.J, t.K, t.PHASE)) = (0x46, 0x57, 0, 0, .feedc) := by decide +kernel
/-- 95_test_vectors.md section 2.2: the round-end addition wraps, 0xfa + 16 = 0x0a. -/
theorem test_addRound : addRound 0xfa 16 = 0x0a := by decide
/-- 95_test_vectors.md section 2.3, FEEDC_STEPs 1 and 16 of the empty message. -/
theorem test_feedcStep :
    (let t := feedcStep { inPhase .feedc with C := State.reset.C.set 0 0x62, X := State.reset.X.set 0 0x31 }
     (t.X[16], t.X[32], t.POS, t.CL)) = (0x62, 0x53, 1, 0) ∧
    (let t := feedcStep { inPhase .feedc with POS := 15, C := State.reset.C.set 15 0x8d, X := State.reset.X.set 15 0x9a }
     (t.X[31], t.X[47], t.POS, t.PHASE, t.KIND)) = (0x8d, 0x17, 0, .mix, .csum) := by decide +kernel

/-! ## The ports -/

/-- 44_output_mux.md R194, status by phase. -/
theorem test_status :
    [Phase.idle, .absorb, .pad, .mix, .feedc, .done].map (fun p => statusPort (inPhase p)) =
      [0x00, 0x04, 0x05, 0x05, 0x05, 0x02] := by decide

/-- 95_test_vectors.md section 2.5, reset during MIX, with a command presented in the same step. -/
theorem test_step_reset :
    (let t := after (step (doing (.reset (some 0x100)) (mixing .msg 2 4 0 0xdb)))
     (t.PHASE, t.T, t.J, t.K, statusPort t)) = (.idle, 0, 0, 0, 0x00) := by decide

/-- 95_test_vectors.md section 2.5, held command: an INIT presented in MIX only waits. -/
theorem test_step_held :
    (let t := after (step (doing (.issue 0x100) (mixing .msg 2 4 0 0xdb)))
     (t.PHASE, t.J, t.K, t.host.acts)) = (.mix, 2, 5, [.issue 0x100]) := by decide

/-- What `withFetchWord` places runs in the very next step after reset. -/
theorem test_step_fetch : statusPort (after (step (State.reset.withFetchWord 12 0x100))) = 0x04 := by decide

/-- 95_test_vectors.md section 2.6: dig_sel reaches its own byte of region 0 in DONE. -/
theorem test_digOut :
    digOut 0 15 { inPhase .done with X := (State.reset.X.set 15 0x73).set 31 0x99 } = 0x73 := by decide

/-! ## The assembler (R77 to R79) -/

/-- 95_test_vectors.md P3's first two words, with a comment. -/
theorem test_assemble_bytes :
    assemble ['I', 'N', 'I', 'T', ' ', ';', 'x', '\n', 'A', 'B', 'S', 'O', 'R', 'B', ' ', '\'', 'a', '\''] =
      .ok [.issue 0x100, .issue 0x261] := by decide
/-- R77: a byte outside 0..255 is refused. -/
theorem test_assemble_range :
    assemble ['A', 'B', 'S', 'O', 'R', 'B', ' ', '2', '5', '6'] = .error (.byteRange 256) := by decide
/-- R79: ABSORBN is n copies; without its comma the line is refused. -/
theorem test_assemble_absorbn :
    assemble ['A', 'B', 'S', 'O', 'R', 'B', 'N', ' ', '\'', 'a', '\'', ',', ' ', '2'] = .ok [.issue 0x261, .issue 0x261] ∧
    assemble ['A', 'B', 'S', 'O', 'R', 'B', 'N', ' ', '\'', 'a', '\'', ' ', '1', '3'] = .error .badLine := by decide
/-- E15: `.word 0x1FF`. -/
theorem test_assemble_word :
    assemble ['.', 'w', 'o', 'r', 'd', ' ', '0', 'x', '1', 'F', 'F'] = .ok [.issue 0x1ff] := by decide
/-- R79: `HASH` of a text; the host action after it. -/
theorem test_assemble_hash :
    assemble ['H', 'A', 'S', 'H', ' ', '"', 'a', 'b', '"', '\n', 'W', 'A', 'I', 'T', 'D', 'O', 'N', 'E'] =
      .ok [.issue 0x100, .issue 0x261, .issue 0x262, .issue 0x300, .waitDone] := by decide

/-! ## Witnesses: encoding -/

theorem witness_DecodingFollowsTheOpcodeMap :
    (0x0ff : Word).toNat / 256 = 0 ∧ (0x100 : Word).toNat / 256 = 1 ∧ (0x2ff : Word).toNat / 256 = 2 ∧
    (0x300 : Word).toNat / 256 = 3 ∧ 4 ≤ (0x400 : Word).toNat / 256 ∧ (0x7ff : Word).toNat / 256 ≤ 7 ∧
    8 ≤ (0x800 : Word).toNat / 256 := by decide

theorem witness_DecodingAnEncodedCommandGivesItBack :
    (Instr.reservedLow 4).wellFormed = true ∧ (Instr.reservedHigh 15).wellFormed = true ∧
    (Instr.absorb 0xff).wellFormed = true ∧ 12 ≤ 12 := by decide

theorem witness_EncodingADecodedWordIsItsCanonicalForm :
    (0x2ff : Word).toNat / 256 = 2 ∧ (0x3ab : Word).toNat / 256 ≠ 2 := by decide

/-! ## Witnesses: the commands -/

/-- NopHasNoEffect, InitOpensAMessage, AbsorbTakesAByte, FinishLatchesThePaddingLength, ReservedCodesRaiseErrIll. -/
theorem witness_ready :
    cmdReady (inPhase .idle) = true ∧ cmdReady (inPhase .absorb) = true ∧ cmdReady (inPhase .done) = true ∧
    (0x0ff : Word).toNat / 256 = 0 ∧ (0x1ff : Word).toNat / 256 = 1 ∧ 4 ≤ (0x400 : Word).toNat / 256 := by decide

theorem witness_NothingSurvivesInit :
    cmdReady full = true ∧ cmdReady { full with PHASE := .done, CNT := 3 } = true ∧
    full.cfg = { full with PHASE := .done, CNT := 3 }.cfg ∧ full.host = { full with PHASE := .done, CNT := 3 }.host :=
  ⟨by decide, by decide, rfl, rfl⟩

/-- Every clause: a word; out of phase; CNT at its maximum; POS 14 and POS 15 below it. -/
theorem witness_AbsorbTakesAByte :
    (0x2ff : Word).toNat / 256 = 2 ∧ noReset full = true ∧
    (cmdReady { full with PHASE := .done } = true ∧ { full with PHASE := .done }.PHASE ≠ .absorb) ∧
    (cmdReady full = true ∧ full.PHASE = .absorb ∧ full.CNT = 2 ^ full.cfg.LENW - 1) ∧
    (full.CNT - 1 ≠ 2 ^ full.cfg.LENW - 1 ∧ ({ full with CNT := 14, POS := 14 } : State).POS.val ≠ 15) ∧
    (({ full with cfg := Config.default } : State).CNT ≠ 2 ^ 64 - 1 ∧ full.POS.val = 15) := by decide

/-- The last clause's premises, met at k = 0 by what FINISH leaves. -/
theorem witness_FinishLatchesThePaddingLength_busy :
    run 0 (after (exec .finish full)) = .next (after (exec .finish full)) ∧
    ∀ j v, j ≤ 0 → run j (after (exec .finish full)) = .next v → v.PHASE ≠ .done := by
  refine ⟨rfl, fun j v hj hv => ?_⟩
  obtain rfl : j = 0 := by omega
  cases hv
  decide

theorem witness_FinishLatchesThePaddingLength :
    (0x3ab : Word).toNat / 256 = 3 ∧ noReset full = true ∧
    cmdReady full = true ∧ full.PHASE = .absorb ∧ full.POS.val = full.CNT % 16 ∧
    cmdReady (inPhase .done) = true ∧ (inPhase .done).PHASE ≠ .absorb := by decide

theorem witness_OutOfPhaseCommandsRaiseErrSeq :
    (inPhase .idle).PHASE = .idle ∧ (inPhase .done).PHASE = .done := by decide

theorem witness_BusyPhasesHoldEveryCommand :
    (inPhase .pad).PHASE = .pad ∧ (inPhase .mix).PHASE = .mix ∧ (inPhase .feedc).PHASE = .feedc := by decide

/-- Its four ways: a reserved word; FINISH in DONE; a byte at CNT = 2^LENW - 1; and no check failing, for FINISH there. -/
theorem witness_TheFirstFailedCheckDecidesTheFlag :
    (cmdReady full = true ∧ 4 ≤ (0x400 : Word).toNat / 256) ∧
    (cmdReady (inPhase .done) = true ∧ 2 ≤ (0x300 : Word).toNat / 256 ∧ (0x300 : Word).toNat / 256 ≤ 3 ∧
      (inPhase .done).PHASE ≠ .absorb) ∧
    ((0x241 : Word).toNat / 256 = 2 ∧ full.PHASE = .absorb ∧ full.CNT = 2 ^ full.cfg.LENW - 1) ∧
    ((0x300 : Word).toNat / 256 < 4 ∧ (2 ≤ (0x300 : Word).toNat / 256 → full.PHASE = .absorb) ∧
      ((0x300 : Word).toNat / 256 = 2 → full.CNT ≠ 2 ^ full.cfg.LENW - 1)) := by decide

theorem witness_AbsorbFrame :
    exec (.absorb 0x41) full = .next (after (exec (.absorb 0x41) full)) ∧
    exec (.absorb 0) (inPhase .absorb) = .next (after (exec (.absorb 0) (inPhase .absorb))) ∧
    (inPhase .absorb).POS.val ≠ 15 := ⟨rfl, rfl, by decide⟩

theorem witness_NonStoringCommandsFrame :
    exec .nop full = .next (after (exec .nop full)) ∧ exec .finish full = .next (after (exec .finish full)) ∧
    exec (.reservedLow 4) full = .next (after (exec (.reservedLow 4) full)) ∧
    exec (.reservedHigh 15) full = .next (after (exec (.reservedHigh 15) full)) := ⟨rfl, rfl, rfl, rfl⟩

/-! ## Witnesses: one step at the ports -/

theorem witness_AStepRunsTheDecodedCommand :
    presented (doing (.issue 0x2ff) full) = some 0x2ff ∧ cmdReady (doing (.issue 0x2ff) full) = true ∧
    rstDriven (doing (.issue 0x2ff) full) = false ∧ 12 ≤ 12 := by decide

theorem witness_EveryStepCompletes :
    (rstDriven full = false ∧ cmdReady full = true ∧ presented full = none) ∧
    (rstDriven (inPhase .pad) = false ∧ cmdReady (inPhase .pad) = false) ∧
    (rstDriven (inPhase .mix) = false ∧ cmdReady (inPhase .mix) = false) ∧
    (rstDriven (inPhase .feedc) = false ∧ cmdReady (inPhase .feedc) = false) := by decide

theorem witness_AHeldCommandStaysPresented :
    ((doing (.issue 0x300) (inPhase .mix)).host.acts = [.issue 0x300] ∧ cmdReady (doing (.issue 0x300) (inPhase .mix)) = false) ∧
    ((doing (.offer 0x300) (inPhase .pad)).host.acts = [.offer 0x300] ∧ cmdReady (doing (.offer 0x300) (inPhase .pad)) = false) ∧
    ((doing (.issue 0x300) full).host.acts = [.issue 0x300] ∧ cmdReady (doing (.issue 0x300) full) = true) ∧
    (doing (.reset (some 0x300)) full).host.acts = [.reset (some 0x300)] := by decide

theorem witness_ResetStateHoldsTheResetValues :
    rstDriven (doing (.reset none) (inPhase .mix)) = true ∧ cmdReady (inPhase .done) = true := by decide

theorem witness_ResetFromEveryPhase :
    (doing (.reset (some 0x100)) (inPhase .feedc)).host.acts = [.reset (some 0x100)] ∧
    (doing (.reset none) (inPhase .done)).host.acts = [.reset none] := by decide

/-! ## Witnesses: the micro-steps -/

theorem witness_PadStepLoadsThePaddingByte :
    (let s : State := { inPhase .pad with PADV := 16, POS := 14 }
     s.PHASE = .pad ∧ rstDriven s = false ∧ s.POS.val ≠ 15) ∧
    (let s : State := { inPhase .pad with PADV := 1, POS := 15 }
     s.PHASE = .pad ∧ rstDriven s = false ∧ s.POS.val = 15) := by decide

theorem witness_MixStepMixesOnePosition :
    (let s := mixing .msg 0 46 0 0
     s.PHASE = .mix ∧ rstDriven s = false ∧ s.K.val ≠ 47) ∧
    (let s := mixing .pad 16 47 0 0
     s.PHASE = .mix ∧ rstDriven s = false ∧ s.K.val = 47 ∧ s.J.val ≠ 17) ∧
    (let s := mixing .csum 17 47 0 0
     s.PHASE = .mix ∧ rstDriven s = false ∧ s.K.val = 47 ∧ s.J.val = 17) := by decide

theorem witness_FeedcStepLoadsAChecksumByte :
    (let s : State := { inPhase .feedc with POS := 14 }
     s.PHASE = .feedc ∧ rstDriven s = false ∧ s.POS.val ≠ 15) ∧
    (let s : State := { inPhase .feedc with POS := 15 }
     s.PHASE = .feedc ∧ rstDriven s = false ∧ s.POS.val = 15) ∧
    ((inPhase .feedc).PHASE = .feedc ∧ rstDriven (inPhase .feedc) = false ∧ noReset (inPhase .feedc) = true ∧
      (inPhase .feedc).POS.val = 0) := by decide

/-! ## Witnesses: the outputs -/

theorem witness_DigestReadOut : (inPhase .done).PHASE = .done ∧ (inPhase .idle).PHASE ≠ .done := by decide

theorem witness_ReadingTheOutputsChangesNoState :
    (doing (.sample 15) (inPhase .done)).host.acts = [.sample 15] ∧ cmdReady (doing (.sample 15) (inPhase .done)) = true ∧
    (doing (.sample 0) (inPhase .mix)).host.acts = [.sample 0] := by decide

/-- Both clauses: a refused command, and INIT. -/
theorem witness_TheDigestIsHeld :
    (let s := doing (.issue 0x300) (inPhase .done)
     s.PHASE = .done ∧ rstDriven s = false ∧ step s = .next (after (step s)) ∧ accepted s ≠ some .init) ∧
    (let s := doing (.issue 0x100) (inPhase .done)
     s.PHASE = .done ∧ rstDriven s = false ∧ step s = .next (after (step s)) ∧ accepted s = some .init) :=
  ⟨⟨rfl, rfl, rfl, by decide⟩, rfl, rfl, rfl, rfl⟩

/-! ## Witnesses: the whole machine -/

/-- Both clauses; the second at the step that fills a block. -/
theorem witness_PhaseChangesAsTheTableSays :
    (let s := doing (.issue 0x241) full
     s.CNT ≤ 2 ^ s.cfg.LENW - 1 ∧ step s = .next (after (step s))) ∧
    (let s : State := { inPhase .feedc with POS := 15 }
     s.CNT ≤ 2 ^ s.cfg.LENW - 1 ∧ step s = .next (after (step s)) ∧ (after (step s)).PHASE = .mix ∧ s.PHASE ≠ .mix) :=
  ⟨⟨by decide, rfl⟩, by decide, rfl, by decide, by decide⟩

/-- TheTableIsNeverWritten, CntCountsTheMessageBytes. -/
theorem witness_step : step full = .next (after (step full)) := rfl

theorem witness_RegionZeroIsChangedOnlyByMixing :
    step (inPhase .pad) = .next (after (step (inPhase .pad))) ∧ (inPhase .pad).PHASE ≠ .mix ∧
    rstDriven (inPhase .pad) = false ∧ accepted (inPhase .pad) ≠ some .init := ⟨rfl, by decide, rfl, by decide⟩

/-- A refused byte at CNT = 2^LENW - 1. -/
theorem witness_TheChecksumTakesOnlyMessageAndPaddingBytes :
    let s := doing (.issue 0x241) full
    step s = .next (after (step s)) ∧ rstDriven s = false ∧ accepted s ≠ some .init ∧ s.PHASE ≠ .pad ∧
      ∀ d, accepted s = some (.absorb d) → s.PHASE ≠ .absorb ∨ s.CNT = 2 ^ s.cfg.LENW - 1 :=
  ⟨rfl, rfl, by decide, by decide, fun _ _ => .inr (by decide)⟩

theorem witness_OnlyInitAndResetClearAFlag :
    let s : State := { full with ERR_ILL := true, ERR_SEQ := true, ERR_LEN := true }
    step s = .next (after (step s)) ∧ rstDriven s = false ∧ accepted s ≠ some .init ∧ flags s = (true, true, true) :=
  ⟨rfl, rfl, by decide, rfl⟩

/-- Its three ways, with a flag that stays set. -/
theorem witness_WhatNeverRaises :
    (let s : State := { inPhase .mix with ERR_ILL := true, ERR_SEQ := true, ERR_LEN := true }
     step s = .next (after (step s)) ∧ accepted s = none ∧ flags (after (step s)) = (true, true, true)) ∧
    (let s := doing (.issue 0x000) full
     step s = .next (after (step s)) ∧ accepted s = some .nop) ∧
    (let s := doing (.issue 0x100) full
     step s = .next (after (step s)) ∧ accepted s = some .init) :=
  ⟨⟨rfl, rfl, rfl⟩, ⟨rfl, rfl⟩, rfl, rfl⟩

/-- Its three ways: the 16th byte of a message block, of a padded block and of the checksum block. -/
theorem witness_APassStartsOnlyByLoadingPositionFifteen :
    (let s := doing (.issue 0x261) { full with cfg := Config.default }
     step s = .next (after (step s)) ∧ s.PHASE ≠ .mix ∧ (after (step s)).PHASE = .mix) ∧
    (let s : State := { inPhase .pad with POS := 15, PADV := 1 }
     step s = .next (after (step s)) ∧ s.PHASE ≠ .mix ∧ (after (step s)).PHASE = .mix) ∧
    (let s : State := { inPhase .feedc with POS := 15 }
     step s = .next (after (step s)) ∧ s.PHASE ≠ .mix ∧ (after (step s)).PHASE = .mix) :=
  ⟨⟨rfl, by decide, by decide⟩, ⟨rfl, by decide, by decide⟩, rfl, by decide, by decide⟩

/-- An open message of 15 bytes takes its 16th. -/
theorem witness_EveryStepKeepsTheInvariants :
    let s : State := doing (.issue 0x261) { full with cfg := Config.default }
    Inv s ∧ step s = .next (after (step s)) :=
  ⟨⟨by decide, by decide, by decide, by decide, by decide, by decide, by decide, by decide, by decide⟩, rfl⟩

/-! ## Witnesses: progress -/

theorem witness_BusyPhasesEnd :
    (noReset (inPhase .feedc) = true ∧ cmdReady (inPhase .feedc) = false) ∧
    (noReset (mixing .msg 0 0 0 0) = true ∧ (mixing .msg 0 0 0 0).PHASE = .mix ∧ (mixing .msg 0 0 0 0).KIND = .msg ∧
      (mixing .msg 0 0 0 0).J = 0 ∧ (mixing .msg 0 0 0 0).K = 0) ∧
    (noReset { inPhase .pad with POS := 15, PADV := 1 } = true ∧ (inPhase .pad).POS.val = 0) := by decide

/-- POS = 0 and POS = 15. -/
theorem witness_AfterFinishTheCoreIsBusyUntilDone :
    (inPhase .absorb).PHASE = .absorb ∧ noReset (inPhase .absorb) = true ∧ (inPhase .absorb).POS.val = 0 ∧
    full.PHASE = .absorb ∧ noReset full = true ∧ full.POS.val = 15 := by decide

theorem witness_PadPhaseFillsTheBlock :
    (let s : State := { inPhase .pad with POS := 15, PADV := 1 }
     noReset s = true ∧ s.PHASE = .pad ∧ 1 ≤ s.PADV.val ∧ s.POS.val = 16 - s.PADV.val) ∧
    (let s : State := { inPhase .pad with POS := 0, PADV := 16 }
     noReset s = true ∧ s.PHASE = .pad ∧ 1 ≤ s.PADV.val ∧ s.POS.val = 16 - s.PADV.val) := by decide

/-! ## Witnesses: the reference function and the core -/

theorem witness_PaddingLengthIsOneToSixteen : 32 % 16 = 0 ∧ 31 % 16 = 15 := by decide

theorem witness_PadFillsToAMultipleOfSixteen :
    [0x61].length ≤ 1 ∧ 15 < (pad [0x61]).length := by decide

theorem witness_CompressReadsOnlyRegionZero :
    ∀ i : Fin 16, (Vector.replicate 48 (0 : Byte))[i.val] = ((Vector.replicate 48 (0 : Byte)).set 16 1)[i.val] := by decide

/-- A block of padding loaded from an all-zero region 0, as the empty message's (95_test_vectors.md section 2.2). -/
theorem witness_APassIsCompress :
    let s : State := { inPhase .mix with
      KIND := .pad, X := Vector.replicate 16 (0 : Byte) ++ Vector.replicate 32 (0x10 : Byte) }
    noReset s = true ∧ s.PHASE = .mix ∧ s.J = 0 ∧ s.K = 0 ∧ s.T = 0 ∧
      (∀ i : Fin 16, (Vector.replicate 48 (0 : Byte))[i.val] = s.X[i.val]) ∧
      (∀ i : Fin 16, s.X[16 + i.val] = (Vector.replicate 16 (0x10 : Byte))[i.val]) ∧
      (∀ i : Fin 16, s.X[32 + i.val] = s.X[16 + i.val] ^^^ s.X[i.val]) := by decide +kernel

/-- The reset state of a host that will issue INIT and FINISH. -/
def hashing : State := { State.reset with host := { State.reset.host with acts := [.issue 0x100, .issue 0x300] } }

/-- The state after INIT and FINISH. -/
def padding : State := after (run 2 hashing)

/-- Two commands in, and then as many micro-steps as remain: the message of the run is empty, and the core is in DONE. -/
theorem witness_TheDigestIsThatOfTheMessage :
    ∃ t, run (2 + remaining padding) hashing = .next t ∧ messageOf (2 + remaining padding) hashing none = some [] ∧
      digValid t = true := by
  have h2 : run 2 hashing = .next padding := rfl
  have hm : ∀ n, messageOf (n + 2) hashing none = messageOf n padding (some []) := fun _ => rfl
  have hn : noReset padding = true := by decide
  obtain ⟨⟨t, ht, hd, -⟩, -⟩ := run_to_ready padding hn
  refine ⟨t, (run_add hashing 2 _ h2).trans ht, ?_, ?_⟩
  · rw [Nat.add_comm, hm]
    exact messageOf_busy padding (remaining padding) (some []) le_rfl hn
  · have : t.PHASE = .done := hd
    simp [digValid, this]

/-- The same run meets the third case; one that stops in the pass on the padded block meets the first (18 steps: INIT, FINISH
and 16 PAD_STEPs). -/
theorem witness_TheChecksumIsThatOfThePaddedMessage :
    (∃ t, run (2 + remaining padding) hashing = .next t ∧ messageOf (2 + remaining padding) hashing none = some [] ∧
      t.PHASE = .done) ∧
    (let t := after (run 18 hashing)
     run 18 hashing = .next t ∧ messageOf 18 hashing none = some [] ∧ t.PHASE = .mix ∧ t.KIND ≠ .msg) := by
  refine ⟨?_, by rfl, by rfl, by decide, by decide⟩
  obtain ⟨t, h1, h2, h3⟩ := witness_TheDigestIsThatOfTheMessage
  exact ⟨t, h1, h2, by simpa [digValid] using h3⟩

/-- The longest message LENW = 4 can count, and the empty one; the host's acts are those of `HASH`. -/
theorem witness_AWholeMessageIsHashed :
    (let m : List Byte := List.replicate 15 0x41
     let s : State := { inPhase .done with cfg := lenw4, host := { acts := expand (.hash m), samples := [], draws := 0 } }
     cmdReady s = true ∧ m.length ≤ 2 ^ s.cfg.LENW - 1 ∧ s.host.acts = expand (.hash m)) ∧
    (cmdReady hashing = true ∧ ([] : List Byte).length ≤ 2 ^ hashing.cfg.LENW - 1 ∧ hashing.host.acts = expand (.hash [])) := by
  decide

end Sys2Proof.Tests
end

section
/-! PROOF. The statements of 00_scope.md. -/

namespace Sys2Proof.Proofs.Scope

open Sys2Proof Sys2Proof.Machine

/-- The case analysis of `microStep_cases` as one conditional: PAD_STEP, MIX_STEP or else FEEDC_STEP (R22). -/
theorem microStep_of_busy (s : State) (hb : cmdReady s = false) :
    microStep s = if s.PHASE = .pad then padStep s else if s.PHASE = .mix then mixStep s else feedcStep s := by
  obtain ⟨hphase, hmicro⟩ | ⟨hphase, hmicro⟩ | ⟨hphase, hmicro⟩ := microStep_cases s hb
  · simp [hmicro, hphase]
  · simp [hmicro, hphase]
  · simp [hmicro, hphase]

/-- Settles O19: the core waits by `step_wait`; a busy phase takes `microStep_of_busy`, which moving the host's side leaves the
same, since it touches neither PHASE nor cmd_ready. -/
theorem everyStepCompletes : Obligations.EveryStepCompletes := by
  intro s
  refine ⟨step_completes s, fun hrst hready hnone => ?_, fun hrst hbusy => ⟨accepted_busy s hbusy, ?_⟩⟩
  · rw [step_wait s hrst hready hnone]
    exact congrArg Host.Outcome.next (hostMoved_eq s)
  · have hbusy' : cmdReady (hostMoved s) = false := (cmdReady_hostMoved s).trans hbusy
    rw [step_busy s hrst hbusy, microStep_of_busy (hostMoved s) hbusy']
    rfl

end Sys2Proof.Proofs.Scope
end

section
/-! PROOF. The statements of 10_state.md: the invariants of R30, the changes of PHASE (R29), the table S (R31 to R34) and the
reset values (R38). -/

namespace Sys2Proof.Proofs.CoreState

open Sys2Proof Sys2Proof.Machine

variable {s t : State}

/-! ### The invariants of R30, operation by operation -/

/-- The invariants speak of the counters and the phase only: the data registers, the flags and the host's side are free. -/
theorem inv_withData (h : Inv s) (x : Vector Byte 48) (c : Vector Byte 16) (cl : Byte) (ill seq len : Bool) (g : HostSide) :
    Inv { s with X := x, C := c, CL := cl, ERR_ILL := ill, ERR_SEQ := seq, ERR_LEN := len, host := g } :=
  ⟨h.cnt_range, h.a_counters, h.b_pos, h.c_pos, h.d_pad, h.d_padv, h.e_kind, h.g_seed, h.msg_aligned⟩

theorem inv_hostMoved (h : Inv s) : Inv (hostMoved s) := inv_withData h _ _ _ _ _ _ _

theorem inv_csumStep (h : Inv s) (c : Byte) : Inv (csumStep c s) := inv_withData h _ _ _ _ _ _ _

theorem inv_loadByte (h : Inv s) (v : Byte) : Inv (loadByte v s) := inv_withData h _ _ _ _ _ _ _

/-- Cleared registers meet the invariants in the two phases that clear them: IDLE (reset) and ABSORB (INIT). -/
theorem inv_clearRegisters (s : State) {p : Phase} (hp : p = .idle ∨ p = .absorb) :
    Inv { clearRegisters s with PHASE := p } := by
  obtain rfl | rfl := hp
  · constructor <;> simp
  · constructor <;> simp

/-- An error-free ABSORB: CNT has room, and POS and CNT go on together modulo 16, so that CNT is aligned where the pass starts
(R135). -/
theorem inv_absorbByte (h : Inv s) (hp : s.PHASE = .absorb) (hc : cntFull s = false) (d : Byte) :
    Inv (advancePos .msg { loadByte d (csumStep d s) with CNT := s.CNT + 1 }) := by
  have hroom : s.CNT + 1 ≤ s.cfg.cntMax := by
    have hne : s.CNT ≠ s.cfg.cntMax := (cntFull_false_iff s).mp hc
    have := h.cnt_range
    omega
  have hpos := h.c_pos hp
  by_cases h15 : s.POS = 15
  · have hcnt : (s.CNT + 1) % 16 = 0 := by
      have := (eq_fifteen_iff s.POS).mp h15
      omega
    constructor <;> simp [advancePos_eq, h15, hroom, hcnt]
  · have hnext : (s.POS + 1).val = (s.CNT + 1) % 16 := by
      have := succ_pos_val h15
      omega
    constructor <;> simp [advancePos_eq, h15, hroom, hp, hnext, h.a_counters, h.e_kind]

/-- FINISH: the latched PADV = 16 - POS is what clauses (d) say, since POS = CNT mod 16 in ABSORB (R137, R150). -/
theorem inv_finish (h : Inv s) (hp : s.PHASE = .absorb) : Inv { s with PADV := padLeft s.POS, PHASE := .pad } := by
  have hpos := h.c_pos hp
  have hlt := s.POS.isLt
  constructor <;> simp [h.cnt_range, h.a_counters, hp, hpos]
  omega

/-- The end of a byte load in PAD or FEEDC, where the pass that follows is not over a message block (R152, R178). -/
theorem inv_advancePos (h : Inv s) (hp : s.PHASE = .pad ∨ s.PHASE = .feedc) {k : Kind} (hk : k ≠ .msg) :
    Inv (advancePos k s) := by
  have hpadv : s.PADV.val = 16 - s.CNT % 16 := h.d_padv (by tauto)
  by_cases h15 : s.POS = 15
  · constructor <;> simp [advancePos_eq, h15, h.cnt_range, hpadv, hk]
  · obtain hphase | hphase := hp
    · have hpad : 1 ≤ 16 - s.CNT % 16 ∧ 16 ≤ (s.POS + 1).val + (16 - s.CNT % 16) := by
        have := h.d_pad hphase
        have := succ_pos_val h15
        omega
      constructor <;> simp [advancePos_eq, h15, h.cnt_range, h.a_counters, hphase, hpadv, hpad]
    · constructor <;> simp [advancePos_eq, h15, h.cnt_range, h.a_counters, hphase, hpadv]

theorem inv_padStep (h : Inv s) (hp : s.PHASE = .pad) : Inv (padStep s) :=
  inv_advancePos (inv_loadByte (inv_csumStep h _) _) (.inl hp) (by decide)

theorem inv_feedcStep (h : Inv s) (hp : s.PHASE = .feedc) : Inv (feedcStep s) :=
  inv_advancePos (inv_loadByte h _) (.inr hp) (by decide)

/-- MIX_STEP: J and K are 0 together only at the start of a pass, and the phase a pass leads to follows from KIND (R175,
R176). -/
theorem inv_mixStep (h : Inv s) (hp : s.PHASE = .mix) : Inv (mixStep s) := by
  have hpos : s.POS = 0 := h.b_pos (.inl hp)
  have hpadv : s.KIND ≠ .msg → s.PADV.val = 16 - s.CNT % 16 := fun hk => h.d_padv (by tauto)
  have haligned := h.msg_aligned hp
  by_cases hK : s.K = 47
  · by_cases hJ : s.J = 17
    · cases hk : s.KIND with
      | msg => constructor <;> simp [mixStep_eq, nextPhase, h.cnt_range, hK, hJ, hk, hpos, haligned hk]
      | pad => constructor <;> simp [mixStep_eq, nextPhase, h.cnt_range, hK, hJ, hk, hpadv]
      | csum => constructor <;> simp [mixStep_eq, nextPhase, h.cnt_range, hK, hJ, hk, hpos, hpadv]
    · have hJ' : s.J + 1 ≠ 0 := fun e => by simpa [e] using succ_J_val hJ
      constructor <;> simp +contextual [mixStep_eq, h.cnt_range, hK, hJ, hp, hJ', hpos, hpadv, haligned]
  · have hK' : s.K + 1 ≠ 0 := fun e => by simpa [e] using succ_K_val hK
    constructor <;> simp +contextual [mixStep_eq, h.cnt_range, hK, hp, hK', hpos, hpadv, haligned]

/-- Settles O40, by the twelve ways a step goes: each leaves the invariants by the lemma of its operation. -/
theorem everyStepKeepsTheInvariants : Obligations.EveryStepKeepsTheInvariants := by
  intro s t hinv hstep
  have hmoved : Inv (hostMoved s) := inv_hostMoved hinv
  apply step_elim s hstep (Inv t)
  case onReset => rintro - - rfl; exact inv_clearRegisters _ (.inl rfl)
  case onWait => rintro - - - rfl; exact hmoved
  case onNop => rintro - - - rfl; exact hmoved
  case onInit => rintro - - - rfl; exact inv_clearRegisters _ (.inr rfl)
  case onSeq => rintro - - - rfl; exact inv_withData hmoved _ _ _ _ _ _ _
  case onLen => rintro - - - - rfl; exact inv_withData hmoved _ _ _ _ _ _ _
  case onByte => rintro d - hphase hroom - rfl; exact inv_absorbByte hmoved hphase hroom d
  case onFinish => rintro - hphase - rfl; exact inv_finish hmoved hphase
  case onReserved => rintro - - - rfl; exact inv_withData hmoved _ _ _ _ _ _ _
  case onPad => rintro - hphase - rfl; exact inv_padStep hmoved hphase
  case onMix => rintro - hphase - rfl; exact inv_mixStep hmoved hphase
  case onFeedc => rintro - hphase - rfl; exact inv_feedcStep hmoved hphase

/-- Settles O39: State.reset is a state with cleared registers in IDLE. -/
theorem resetMeetsTheInvariants : Obligations.ResetMeetsTheInvariants :=
  inv_clearRegisters State.reset (.inl rfl)

/-! ### The phase after a step (R29) -/

/-- The end of a byte load enters MIX at position 15 and keeps the phase before it. -/
@[simp] theorem advancePos_PHASE (s : State) (k : Kind) :
    (advancePos k s).PHASE = if s.POS = 15 then .mix else s.PHASE := by
  rw [advancePos_eq]
  split <;> rfl

/-- KIND is set where the pass starts. -/
@[simp] theorem advancePos_KIND (s : State) (k : Kind) :
    (advancePos k s).KIND = if s.POS = 15 then k else s.KIND := by
  rw [advancePos_eq]
  split <;> rfl

/-- Settles O30, by the twelve ways a step goes. Only a byte load enters MIX, from ABSORB, PAD or FEEDC, each with its KIND. -/
theorem phaseChangesAsTheTableSays : Obligations.PhaseChangesAsTheTableSays := by
  intro s t hcnt hstep
  apply step_elim s hstep
  case onReset => rintro hrst - rfl; simp [hrst]
  case onWait =>
    rintro hrst hready hacc rfl
    obtain hp | hp | hp := (cmdReady_iff s).mp hready <;> simp [hrst, hacc, hp]
  case onNop => rintro hrst - hacc rfl; simp +contextual [hrst, hacc]
  case onInit => rintro hrst - hacc rfl; simp [hrst, hacc]
  case onSeq =>
    rintro hrst - ⟨⟨d, hacc⟩ | hacc, hphase⟩ rfl
    · simp +contextual [hrst, hacc, hphase]
    · simp +contextual [hrst, hacc, hphase]
  case onLen =>
    rintro hrst hphase hfull ⟨d, hacc⟩ rfl
    simp [hrst, hacc, hphase, (cntFull_iff s).mp hfull]
  case onByte =>
    rintro d hrst hphase hroom hacc rfl
    have hlt : s.CNT < 2 ^ s.cfg.LENW - 1 := lt_of_le_of_ne hcnt ((cntFull_false_iff s).mp hroom)
    simp +contextual [hrst, hacc, hphase, hlt, eq_fifteen_iff]
  case onFinish => rintro hrst hphase hacc rfl; simp [hrst, hacc, hphase]
  case onReserved =>
    rintro hrst - ⟨i, ⟨op, rfl⟩ | ⟨op, rfl⟩, hacc⟩ rfl
    · simp +contextual [hrst, hacc]
    · simp +contextual [hrst, hacc]
  case onPad => rintro hrst hphase hacc rfl; simp +contextual [hrst, hacc, hphase, padStep, eq_fifteen_iff]
  case onMix =>
    rintro hrst hphase hacc rfl
    have hnext := mixStep_PHASE (hostMoved s) hphase
    cases hkind : s.KIND <;> simp [hrst, hacc, hphase, hnext, hkind, nextPhase, Fin.ext_iff, and_comm]
  case onFeedc => rintro hrst hphase hacc rfl; simp +contextual [hrst, hacc, hphase, feedcStep, eq_fifteen_iff]

/-! ### The table S (R31 to R34) -/

@[simp] theorem microStep_cfg (s : State) : (microStep s).cfg = s.cfg := by
  unfold microStep
  split <;> simp [padStep, feedcStep]

/-- No step changes the parameters (R8, R32). -/
theorem step_cfg (hstep : step s = .next t) : t.cfg = s.cfg := by
  obtain ⟨-, -, rfl⟩ | ⟨-, -, -, rfl⟩ | ⟨-, -, i, -, hexec⟩ | ⟨-, -, -, rfl⟩ := step_cases s hstep
  · rfl
  · rfl
  · exact (exec_frame _ i hexec).1
  · exact microStep_cfg _

/-- Settles O31: the table is one of the parameters. -/
theorem theTableIsNeverWritten : Obligations.TheTableIsNeverWritten := by
  intro s t hstep
  have hcfg := step_cfg hstep
  exact ⟨fun v => by rw [hcfg], hcfg⟩

/-- The entries of a table are pairwise distinct, so no two bytes share one (R34). -/
theorem tableEntry_injective (cfg : Config) : Function.Injective (tableEntry cfg) := by
  intro v w hvw
  have hentries : cfg.PERM.toList[v.toNat]'(by simpa using v.isLt) = cfg.PERM.toList[w.toNat]'(by simpa using w.isLt) := by
    simpa [tableEntry] using hvw
  exact BitVec.eq_of_toNat_eq ((cfg.perm_nodup.getElem_inj_iff).mp hentries)

/-- Settles O32: an injective function of the 256 bytes into themselves is a bijection. -/
theorem theTableIsABijection : Obligations.TheTableIsABijection :=
  fun cfg => Finite.injective_iff_bijective.mp (tableEntry_injective cfg)

/-! ### The reset values (R38) -/

/-- Settles O22: reset and INIT clear the registers to the values of State.reset; only PHASE differs. -/
theorem resetStateHoldsTheResetValues : Obligations.ResetStateHoldsTheResetValues := by
  refine ⟨by simp [State.reset], fun s hrst => ?_, fun s hready => exec_init s hready⟩
  exact ⟨applyReset (hostMoved s), step_reset s hrst, rfl, fun _ => rfl⟩

end Sys2Proof.Proofs.CoreState
end

section
/-! PROOF. The statements of 30_encoding.md: the decoder and the encoder are inverse up to the ignored data bits (R70 to R74),
and what the assembler's items expand to (R77 to R79). -/

namespace Sys2Proof.Proofs.Encoding

open Sys2Proof Sys2Proof.Machine

/-! ### Decoding an encoded command (R73, R74) -/

/-- The round trip, one row of the opcode map at a time. -/
theorem decode_encode (i : Instr) (hwf : i.wellFormed = true) : decode (encode i) = i := by
  cases i with
  | nop => exact Laws.RoundTrip.nop hwf
  | init => exact Laws.RoundTrip.init hwf
  | absorb d => exact Laws.RoundTrip.absorb d hwf
  | finish => exact Laws.RoundTrip.finish hwf
  | reservedLow op => exact Laws.RoundTrip.reservedLow op hwf
  | reservedHigh op => exact Laws.RoundTrip.reservedHigh op hwf

/-- The number of a word is never too wide for the command channel. -/
theorem decodeNat_toNat (w : Word) : decodeNat w.toNat = .ok (decode w) := by
  have hlt : w.toNat < 4096 := w.isLt
  simp [decodeNat, wordOfNat, hlt]

/-- A table row of at least 12 bits holds every word as it stands. -/
theorem tableValue_toNat {nbits : Nat} (hbits : 12 ≤ nbits) (w : Word) : tableValue nbits w.toNat = w.toNat :=
  Nat.mod_eq_of_lt (lt_of_lt_of_le w.isLt (Nat.pow_le_pow_right (by decide) hbits))

theorem decodeTableWord_toNat {nbits : Nat} (hbits : 12 ≤ nbits) (w : Word) :
    decodeTableWord nbits w.toNat = some (decode w) := by
  simp [decodeTableWord, tableValue_toNat hbits, decodeNat_toNat]

/-- Settles O3: the three decoders agree on a word, so the round trip of `decode` serves them all. -/
theorem decodingAnEncodedCommandGivesItBack : Obligations.DecodingAnEncodedCommandGivesItBack := by
  intro i hwf
  have hback : decode (encode i) = i := decode_encode i hwf
  refine ⟨hback, ?_, fun nbits hbits => ?_⟩
  · rw [decodeNat_toNat, hback]
  · rw [decodeTableWord_toNat hbits, hback]

/-! ### Decoding and encoding a word (R72, R74, R78) -/

/-- Settles O2: the rows of `decode_cases`, with op and data read as w div 256 and w mod 256. -/
theorem decodingFollowsTheOpcodeMap : Obligations.DecodingFollowsTheOpcodeMap := by
  intro w
  rw [← opField_toNat, ← dataField_toNat]
  simp only [BitVec.ofNat_toNat, BitVec.setWidth_eq]
  obtain ⟨hop, hdec⟩ | ⟨hop, hdec⟩ | ⟨hop, hdec⟩ | ⟨hop, hdec⟩ | ⟨hlow, hhigh, hdec⟩ | ⟨hlow, hdec⟩ := decode_cases w
  · simp [hop, hdec]
  · simp [hop, hdec]
  · simp [hop, hdec]
  · simp [hop, hdec]
  · refine ⟨?_, ?_, ?_, ?_, fun _ _ => hdec, ?_⟩ <;> omega
  · refine ⟨?_, ?_, ?_, ?_, ?_, fun _ => hdec⟩ <;> omega

theorem decode_wellFormed (w : Word) : (decode w).wellFormed = true := by
  obtain ⟨-, hdec⟩ | ⟨-, hdec⟩ | ⟨-, hdec⟩ | ⟨-, hdec⟩ | ⟨hlow, hhigh, hdec⟩ | ⟨hlow, hdec⟩ := decode_cases w
  · rw [hdec]; rfl
  · rw [hdec]; rfl
  · rw [hdec]; rfl
  · rw [hdec]; rfl
  · simp [hdec, Instr.wellFormed, hlow, hhigh]
  · simp [hdec, Instr.wellFormed, hlow]

/-- The canonical form of a word: its op, and its data where the op is ABSORB's (R72, R78). -/
theorem encode_decode_toNat (w : Word) :
    (encode (decode w)).toNat = w.toNat / 256 * 256 + if w.toNat / 256 = 2 then w.toNat % 256 else 0 := by
  rw [encode_toNat, ← opField_toNat, ← dataField_toNat]
  obtain ⟨hop, hdec⟩ | ⟨hop, hdec⟩ | ⟨hop, hdec⟩ | ⟨hop, hdec⟩ | ⟨hlow, -, hdec⟩ | ⟨hlow, hdec⟩ := decode_cases w
  · simp [hop, hdec, opOf, dataOf]
  · simp [hop, hdec, opOf, dataOf]
  · simp [hop, hdec, opOf, dataOf]
  · simp [hop, hdec, opOf, dataOf]
  · have hne : (opField w).toNat ≠ 2 := by omega
    simp [hne, hdec, opOf, dataOf]
  · have hne : (opField w).toNat ≠ 2 := by omega
    simp [hne, hdec, opOf, dataOf]

/-- Settles O4, from the canonical form of a word and the round trip of the command it decodes to. -/
theorem encodingADecodedWordIsItsCanonicalForm : Obligations.EncodingADecodedWordIsItsCanonicalForm := by
  intro w
  have hcanon := encode_decode_toNat w
  refine ⟨decode_wellFormed w, fun hop => ?_, fun hop => ?_, decode_encode _ (decode_wellFormed w)⟩
  · apply BitVec.eq_of_toNat_eq
    rw [hcanon, if_pos hop, Nat.div_add_mod']
  · rw [hcanon, if_neg hop, Nat.add_zero]

/-! ### What the assembler writes (R77 to R79) -/

/-- The word of ABSORB b is 0x200 + b: the byte does not reach the op bits (R70, R73). -/
theorem encode_absorb (b : Byte) : encode (.absorb b) = 0x200 + b.setWidth 12 := by
  apply BitVec.eq_of_toNat_eq
  have hb := b.isLt
  rw [encode_toNat, BitVec.toNat_add, BitVec.toNat_setWidth]
  change 2 * 256 + b.toNat = (512 + b.toNat % 4096) % 4096
  omega

theorem issueCommand_absorb (b : Byte) : issueCommand (.absorb b) = .issue (0x200 + b.setWidth 12) :=
  congrArg HostAct.issue (encode_absorb b)

/-- Settles O6: an item's expansion is its definition, with the words of NOP, INIT and FINISH computed and that of ABSORB from
`encode_absorb`. -/
theorem assemblerFormsExpandAsTheSpecSays : Obligations.AssemblerFormsExpandAsTheSpecSays := by
  refine ⟨rfl, rfl, rfl, fun b => ?_, fun _ => rfl, fun bs => ?_, fun b n => ?_, fun _ => rfl, rfl, rfl, rfl, rfl⟩
  · simp only [expand, issueCommand_absorb]
  · simp only [expand, issueBytes, issueCommand_absorb]
  · simp only [expand, issueBytes, issueCommand_absorb, List.map_replicate]

end Sys2Proof.Proofs.Encoding
end

section
/-! PROOF. The statements of 40_reference_function.md: the padding and the augmented buffer (R102 to R106), Compress and its
region 0 (R108, R112), and the core's checksum and pass as the reference's stages (R160, R180). -/

namespace Sys2Proof.Proofs.ReferenceFunction

open Sys2Proof Sys2Proof.Machine

/-! ### A pass of the core is one Compress (R175, R176, R180) -/

/-- `u` is the core `n` MIX_STEPs into a pass that began in `s`, on the digest state and running value `a`. -/
structure MidPass (s : State) (a : Mix) (n : Nat) (u : State) : Prop where
  phase : u.PHASE = .mix
  kind : u.KIND = s.KIND
  cfg : u.cfg = s.cfg
  index : 48 * u.J.val + u.K.val = n
  pass : PassAt u a

variable {s u : State} {a : Mix} {n : Nat}

/-- The registers at the start of a pass, where J = K = 0 and T = 0 (R174). -/
theorem midPass_start (hphase : s.PHASE = .mix) (hJ : s.J = 0) (hK : s.K = 0) (hT : s.T = 0) :
    MidPass s { X := s.X, T := 0 } 0 s where
  phase := hphase
  kind := rfl
  cfg := rfl
  index := by simp [hJ, hK]
  pass := by simp [PassAt, hJ, hK, hT, mixAt_zero]

/-- J and K stand at the last position of the last round exactly at the 864th MIX_STEP (R175). -/
theorem last_position_iff (s : State) : s.K = 47 ∧ s.J = 17 ↔ 48 * s.J.val + s.K.val = 863 := by
  have hK := s.K.isLt
  have hJ := s.J.isLt
  rw [Fin.ext_iff, Fin.ext_iff]
  change s.K.val = 47 ∧ s.J.val = 17 ↔ _
  omega

/-- A MIX_STEP that does not end the pass goes to the next position, or to position 0 of the next round (R175). -/
theorem mixStep_index (s : State) (hne : ¬(s.K = 47 ∧ s.J = 17)) :
    48 * (mixStep s).J.val + (mixStep s).K.val = 48 * s.J.val + s.K.val + 1 := by
  by_cases hK : s.K = 47
  · have hJ : s.J ≠ 17 := fun hJ => hne ⟨hK, hJ⟩
    have hKval : s.K.val = 47 := by rw [hK]; rfl
    simp only [mixStep_eq, if_pos hK, if_neg hJ, succ_J_val hJ, Fin.val_zero]
    omega
  · simp only [mixStep_eq, if_neg hK, succ_K_val hK]
    omega

theorem MidPass.step (h : MidPass s a n u) (hn : n < 863) : MidPass s a (n + 1) (microStep u) := by
  have hne : ¬(u.K = 47 ∧ u.J = 17) := fun hlast => by
    have := (last_position_iff u).mp hlast
    have := h.index
    omega
  rw [microStep_mix u h.phase]
  exact {
    phase := by rw [mixStep_PHASE u h.phase, if_neg hne]
    kind := (mixStep_KIND u).trans h.kind
    cfg := (mixStep_cfg u).trans h.cfg
    index := by rw [mixStep_index u hne, h.index]
    pass := mixStep_pass u a h.pass hne }

theorem midPass_iterate (h : MidPass s a 0 s) (hn : n ≤ 863) : MidPass s a n (microStep^[n] s) := by
  induction n with
  | zero => exact h
  | succ n ih =>
    rw [Function.iterate_succ_apply']
    exact (ih (by omega)).step (by omega)

/-- The 864th MIX_STEP ends the pass: X is R108's after 18 rounds, J and K are 0, and KIND chooses the phase (R176). -/
theorem MidPass.last (h : MidPass s a 863 u) :
    (microStep u).X = (mixAt s.cfg a 18 0).X ∧ (microStep u).J = 0 ∧ (microStep u).K = 0 ∧
      (microStep u).KIND = s.KIND ∧ (microStep u).PHASE = nextPhase s.KIND := by
  obtain ⟨hK, hJ⟩ := (last_position_iff u).mpr h.index
  rw [microStep_mix u h.phase]
  refine ⟨?_, ?_, ?_, (mixStep_KIND u).trans h.kind, ?_⟩
  · rw [mixStep_last u a h.pass hK hJ, h.cfg]
  · simp [mixStep_eq, hK, hJ]
  · simp [mixStep_eq, hK, hJ]
  · rw [mixStep_PHASE u h.phase, if_pos ⟨hK, hJ⟩, h.kind]

/-- A pass that has not begun has its 864 MIX_STEPs to go, whatever block it compresses (R175, R138). -/
theorem le_remaining_of_pass_start (hphase : s.PHASE = .mix) (hJ : s.J = 0) (hK : s.K = 0) : 864 ≤ remaining s := by
  simp [remaining, hphase, hJ, hK]

/-- Settles O47: the loaded regions are what Compress's copy loops make from `x`, and each MIX_STEP is the next position of its
18 rounds, so that the last one leaves its result. -/
theorem aPassIsCompress : Obligations.APassIsCompress := by
  intro s x b hreset hphase hJ hK hT hregion0 hregion1 hregion2
  have hloaded : xorRegions (copyBlock b x) = s.X :=
    loaded_unique (fun i => (hregion0 i).symm) hregion1 (fun i => by rw [hregion2, hregion1])
  obtain ⟨host, hrun, -⟩ := run_busy s 864 (le_remaining_of_pass_start hphase hJ hK) hreset
  have hmid : MidPass s { X := s.X, T := 0 } 863 (microStep^[863] s) :=
    midPass_iterate (midPass_start hphase hJ hK hT) le_rfl
  obtain ⟨hX, hJ', hK', hKIND, hPHASE⟩ := hmid.last
  rw [Function.iterate_succ_apply'] at hrun
  generalize microStep (microStep^[863] s) = u at hrun hX hJ' hK' hKIND hPHASE
  refine ⟨withHost host u, hrun, ?_, hJ', hK', hKIND, ?_⟩
  · rw [compress_eq, hloaded]
    exact hX
  · rw [withHost_PHASE, hPHASE]
    cases s.KIND <;> rfl

/-! ### The checksum of the padded message (R105, R136, R160) -/

/-- In a pass on the block of padding or of the checksum, in FEEDC and in DONE, all of Pad(m) has been summed. -/
theorem summed_pad_of_track {m : List Byte} (h : Track s m)
    (hphase : (s.PHASE = .mix ∧ s.KIND ≠ .msg) ∨ s.PHASE = .feedc ∨ s.PHASE = .done) : Summed s (pad m) := by
  obtain ⟨hmix, hkind⟩ | hfeedc | hdone := hphase
  · cases hk : s.KIND with
    | msg => exact absurd hk hkind
    | pad => exact ((track_padded hmix hk).mp h).1
    | csum => exact ((track_csum hmix hk).mp h).1
  · exact ((track_feedc hfeedc).mp h).1
  · exact ((track_done hdone).mp h).1

/-- Settles O48: the registers follow the message of the run (`tracked_run`), with nothing claimed of the state it starts from,
where no message is open. -/
theorem theChecksumIsThatOfThePaddedMessage : Obligations.TheChecksumIsThatOfThePaddedMessage := by
  intro s t n m hrun hmessage hphase
  have htracked : Tracked t (messageOf n s none) := tracked_run n trivial hrun
  rw [hmessage] at htracked
  exact checksum_of_summed (summed_pad_of_track htracked hphase)

/-! ### Pad and the augmented buffer (R102 to R106) -/

/-- Settles O43: the bounds are those of a remainder modulo 16, and the document's three examples compute. -/
theorem paddingLengthIsOneToSixteen : Obligations.PaddingLengthIsOneToSixteen := by
  refine ⟨fun n => ⟨rfl, ?_⟩, rfl, rfl, rfl⟩
  unfold paddingLength
  omega

theorem sixteen_le_pad_length (m : List Byte) : 16 ≤ (pad m).length := by
  rw [pad_length]
  unfold paddingLength
  omega

/-- Past the message, Pad(m) holds the byte P (R103). -/
theorem pad_getD (m : List Byte) {i : Nat} (hlo : m.length ≤ i) (hhi : i < (pad m).length) :
    (pad m).getD i 0 = BitVec.ofNat 8 (paddingLength m.length) := by
  rw [List.getD_eq_getElem _ _ hhi]
  simp only [pad]
  rw [List.getElem_append_right hlo, List.getElem_replicate]

/-- Settles O44: Pad(m) is m followed by P bytes P, and P is what completes the last block. -/
theorem padFillsToAMultipleOfSixteen : Obligations.PadFillsToAMultipleOfSixteen := by
  intro m
  exact ⟨pad_length m, pad_length_mod m, sixteen_le_pad_length m, List.take_left, fun _ hlo hhi => pad_getD m hlo hhi, rfl⟩

theorem augmented_length (cfg : Config) (m : List Byte) : (augmented cfg m).length = (pad m).length + 16 := by
  simp [augmented]

/-- Settles O45: the buffer is cut at the length of Pad(m), a multiple of 16 that is floor(len/16) + 1 blocks long. -/
theorem theAugmentedBufferHasItsBlocks : Obligations.TheAugmentedBufferHasItsBlocks := by
  intro cfg m
  have hwhole := pad_length_mod m
  have hblocks : (pad m).length / 16 = m.length / 16 + 1 := by
    rw [pad_length]
    unfold paddingLength
    omega
  rw [augmented_length, ← pad_length]
  refine ⟨List.take_left, List.drop_left, rfl, ?_, ?_⟩
  · omega
  · omega

/-! ### Compress reads region 0 only (R108, R112) -/

/-- The two copy loops overwrite regions 1 and 2, so what they make depends on region 0 and the block alone. -/
theorem loaded_congr {x y : Vector Byte 48} (b : Vector Byte 16) (h : ∀ i : Fin 16, x[i.val] = y[i.val]) :
    xorRegions (copyBlock b x) = xorRegions (copyBlock b y) := by
  apply loaded_unique
  · exact fun i => (loaded_get b y i).1.trans (h i).symm
  · exact fun i => (loaded_get b y i).2.1
  · intro i
    obtain ⟨hregion0, -, hregion2⟩ := loaded_get b y i
    rw [hregion2, hregion0]

/-- Settles O46: the rounds start from what the copy loops make. -/
theorem compressReadsOnlyRegionZero : Obligations.CompressReadsOnlyRegionZero := by
  intro cfg x y b h
  rw [compress_eq, compress_eq, loaded_congr b h]

end Sys2Proof.Proofs.ReferenceFunction
end

section
/-! PROOF. The statements of 41_commands.md: what each command does and leaves (R131 to R139), how the host's commands are taken
(R130, R237), and the digest of a whole message (R182, R192, R245). -/

namespace Sys2Proof.Proofs.Commands

open Sys2Proof Sys2Proof.Machine
open Sys2Proof.Proofs.CoreState Sys2Proof.Proofs.Encoding Sys2Proof.Proofs.ReferenceFunction

variable {s t u : State} {m : List Byte} {d : Byte}

/-! ### The digest (R182, R192) -/

/-- In DONE the registers of a tracked message hold its digest: region 0 after every block of the augmented buffer (R111). -/
theorem regionZero_of_track_done (hdone : s.PHASE = .done) (h : Track s m) (i : Fin 16) :
    s.X[i.val] = (digest s.cfg m)[i.val] := by
  obtain ⟨-, hX⟩ := (track_done hdone).mp h
  simp [digest, compressAll, hX, blocksDone]

/-- Settles O49: the registers follow the message of the run (`tracked_run`), with nothing claimed of the state it starts from. -/
theorem theDigestIsThatOfTheMessage : Obligations.TheDigestIsThatOfTheMessage := by
  intro s t n m hrun hmessage hvalid
  have hdone : t.PHASE = .done := of_decide_eq_true hvalid
  have htracked : Tracked t (messageOf n s none) := tracked_run n trivial hrun
  rw [hmessage] at htracked
  have hdigest := regionZero_of_track_done hdone htracked
  refine ⟨hdigest, fun sel draw => ?_⟩
  rw [digOut, if_pos hdone]
  exact hdigest (selected sel)

/-! ### The operations as updates of the state -/

theorem csumStep_eq (c : Byte) (s : State) :
    csumStep c s = { s with
      C := s.C.set s.POS.val (s.C[s.POS.val] ^^^ tableEntry s.cfg (c ^^^ s.CL))
      CL := s.C[s.POS.val] ^^^ tableEntry s.cfg (c ^^^ s.CL) } := by
  simp [csumStep, setC, getC]

theorem loadByte_eq (v : Byte) (s : State) :
    loadByte v s = { s with
      X := (s.X.set (16 + s.POS.val) v).set (32 + s.POS.val) (v ^^^ s.X[s.POS.val]) } := by
  simp [loadByte, setX, getX]

/-- Everything ABSORB can answer: the state with ERR_SEQ or ERR_LEN touched at most, or the byte taken (R130, R135). -/
theorem exec_absorb_cases (h : exec (.absorb d) s = .next t) :
    (∃ seq len, t = { s with ERR_SEQ := seq, ERR_LEN := len }) ∨
    t = advancePos .msg { loadByte d (csumStep d s) with CNT := s.CNT + 1 } := by
  cases hready : cmdReady s with
  | false =>
    rw [exec_held s _ hready] at h
    cases h
    exact .inl ⟨s.ERR_SEQ, s.ERR_LEN, rfl⟩
  | true =>
    by_cases hphase : s.PHASE = .absorb
    · cases hfull : cntFull s with
      | true =>
        rw [exec_absorb_len s d hphase hfull] at h
        cases h
        exact .inl ⟨s.ERR_SEQ, true, rfl⟩
      | false =>
        rw [exec_absorb s d hphase hfull] at h
        cases h
        exact .inr rfl
    · rw [exec_absorb_seq s d hready hphase] at h
      cases h
      exact .inl ⟨true, s.ERR_LEN, rfl⟩

/-- Everything FINISH can answer: the state with ERR_SEQ touched at most, or the padding length latched (R130, R137). -/
theorem exec_finish_cases (h : exec .finish s = .next t) :
    (∃ seq, t = { s with ERR_SEQ := seq }) ∨ t = { s with PADV := padLeft s.POS, PHASE := .pad } := by
  cases hready : cmdReady s with
  | false =>
    rw [exec_held s _ hready] at h
    cases h
    exact .inl ⟨s.ERR_SEQ, rfl⟩
  | true =>
    by_cases hphase : s.PHASE = .absorb
    · rw [exec_finish s hphase] at h
      cases h
      exact .inr rfl
    · rw [exec_finish_seq s hready hphase] at h
      cases h
      exact .inl ⟨true, rfl⟩

/-- A reserved code answers the state with ERR_ILL touched at most (R130, R139). -/
theorem exec_reserved_cases {i : Instr} (hi : (∃ op, i = .reservedLow op) ∨ ∃ op, i = .reservedHigh op)
    (h : exec i s = .next t) : ∃ ill, t = { s with ERR_ILL := ill } := by
  cases hready : cmdReady s with
  | false =>
    rw [exec_held s _ hready] at h
    cases h
    exact ⟨s.ERR_ILL, rfl⟩
  | true =>
    obtain ⟨op, rfl⟩ | ⟨op, rfl⟩ := hi
    · rw [exec_reservedLow s op hready] at h
      cases h
      exact ⟨true, rfl⟩
    · rw [exec_reservedHigh s op hready] at h
      cases h
      exact ⟨true, rfl⟩

/-! ### The frames (R131, R135, R137, R139) -/

/-- Settles O16: a refused ABSORB touches a flag; one that is taken sets C at POS and X at 16 + POS and 32 + POS, and starts a
pass only at POS = 15. -/
theorem absorbFrame : Obligations.AbsorbFrame := by
  intro s t d h
  obtain ⟨seq, len, rfl⟩ | rfl := exec_absorb_cases h
  · simp
  · refine ⟨fun i h16 h32 => ?_, fun i hi => ?_, ?_, ?_, ?_, ?_, fun h15 => ?_⟩
    · simp [h16.symm, h32.symm]
    · have hne : s.POS.val ≠ i.val := fun e => hi (Fin.ext e.symm)
      simp [hne]
    · simp
    · simp
    · simp
    · simp
    · have hne : s.POS ≠ 15 := mt (eq_fifteen_iff s.POS).mp h15
      simp [advancePos_eq, hne]

/-- Settles O17: each of these commands answers the state with at most PADV and PHASE, or one flag, changed. -/
theorem nonStoringCommandsFrame : Obligations.NonStoringCommandsFrame := by
  rintro i s t (rfl | rfl | hreserved) h
  · rw [exec_nop] at h
    cases h
    simp
  · obtain ⟨seq, rfl⟩ | rfl := exec_finish_cases h
    · simp
    · simp
  · obtain ⟨ill, rfl⟩ := exec_reserved_cases hreserved h
    obtain ⟨op, rfl⟩ | ⟨op, rfl⟩ := hreserved
    · simp
    · simp

/-! ### NOP, INIT, the reserved codes and the busy phases (R130 to R133, R139) -/

/-- Settles O7: the data field does not reach the decoded command (R72). -/
theorem nopHasNoEffect : Obligations.NopHasNoEffect := by
  intro s _
  refine ⟨exec_nop s, fun w hop => ?_⟩
  obtain ⟨hnop, -⟩ := decodingFollowsTheOpcodeMap w
  rw [hnop hop, exec_nop]

/-- Settles O8: the cleared registers are the initial values (R133), and status is computed from them. -/
theorem initOpensAMessage : Obligations.InitOpensAMessage := by
  intro s hready
  refine ⟨_, exec_init s hready, rfl, ?_, rfl, fun w hop => ?_⟩
  · simp [statusPort_eq, openPhase, busyPhase]
  obtain ⟨-, hinit, -⟩ := decodingFollowsTheOpcodeMap w
  rw [hinit hop, exec_init s hready]

/-- Settles O9: what INIT answers is a function of the parameters and the host's side alone. -/
theorem nothingSurvivesInit : Obligations.NothingSurvivesInit := by
  intro s u hs hu hcfg hhost
  refine ⟨_, exec_init s hs, ?_⟩
  rw [exec_init u hu, clearRegisters, clearRegisters, hcfg, hhost]

/-- A reserved op decodes to a reserved code (R75). -/
theorem decode_reserved {w : Word} (hop : 4 ≤ w.toNat / 256) :
    (∃ op, decode w = .reservedLow op) ∨ ∃ op, decode w = .reservedHigh op := by
  obtain ⟨-, -, -, -, hlow, hhigh⟩ := decodingFollowsTheOpcodeMap w
  by_cases hle : w.toNat / 256 ≤ 7
  · exact .inl ⟨_, hlow hop hle⟩
  · exact .inr ⟨_, hhigh (by omega)⟩

/-- ERR_ILL is status bit 4 (R193). -/
theorem statusPort_bit_four (s : State) : (statusPort s).getLsbD 4 = s.ERR_ILL := by
  rw [statusPort_eq]
  simp only [BitVec.getLsbD_append]
  simp

/-- Settles O12, by the two rows of reserved codes. -/
theorem reservedCodesRaiseErrIll : Obligations.ReservedCodesRaiseErrIll := by
  intro s hready
  refine ⟨fun w hop => ?_, fun op => exec_reservedLow s op hready, fun op => exec_reservedHigh s op hready, ?_⟩
  · obtain ⟨op, hdec⟩ | ⟨op, hdec⟩ := decode_reserved hop
    · rw [hdec, exec_reservedLow s op hready]
    · rw [hdec, exec_reservedHigh s op hready]
  · exact statusPort_bit_four _

/-- Settles O14: these are the phases where cmd_ready = 0. -/
theorem busyPhasesHoldEveryCommand : Obligations.BusyPhasesHoldEveryCommand :=
  fun i s hphase => exec_held s i ((not_cmdReady_iff s).mpr hphase)

/-! ### How the host's commands are taken (R130, R237) -/

theorem withFetchWord_eq {nbits : Nat} (hbits : 12 ≤ nbits) (s : State) (w : Word) :
    s.withFetchWord nbits w.toNat = presentWord w s := by
  have hlt : w.toNat < 4096 := w.isLt
  simp [State.withFetchWord, presentTableWord, tableValue_toNat hbits, wordOfNat, hlt]

/-- Settles O18: `withFetchWord` makes the word the one presented, so that both clauses are `step_exec`. -/
theorem aStepRunsTheDecodedCommand : Obligations.AStepRunsTheDecodedCommand := by
  refine ⟨fun s w hpresented hready hrst => ⟨?_, step_exec s hrst hready hpresented, hostMoved_eq s⟩,
    fun s w nbits hready hbits => ?_⟩
  · exact (accepted_eq_some s).mpr ⟨hrst, hready, w, hpresented, rfl⟩
  · rw [withFetchWord_eq hbits]
    exact ⟨step_exec (presentWord w s) rfl hready rfl, rfl⟩

@[simp] theorem mixStep_host (s : State) : (mixStep s).host = s.host := by
  by_cases hK : s.K = 47 <;> by_cases hJ : s.J = 17 <;> simp [mixStep_eq, hK, hJ]

@[simp] theorem microStep_host (s : State) : (microStep s).host = s.host := by
  unfold microStep
  split <;> simp [padStep, feedcStep]

/-- Whatever a step does to the core, the host's side moves on by `hostMoved`. -/
theorem step_host (h : step s = .next t) : t.host = (hostMoved s).host := by
  obtain ⟨-, -, rfl⟩ | ⟨-, -, -, rfl⟩ | ⟨-, -, i, -, hexec⟩ | ⟨-, -, -, rfl⟩ := step_cases s h
  · rfl
  · rfl
  · exact (exec_frame _ i hexec).2
  · exact microStep_host _

/-- A step completes, and the host's act stays or goes as `actDone` says. -/
theorem step_acts (s : State) :
    ∃ t, step s = .next t ∧ t.host.acts = if actDone s then s.host.acts.tail else s.host.acts := by
  obtain ⟨t, hstep⟩ := step_completes s
  exact ⟨t, hstep, by rw [step_host hstep, hostMoved_acts]⟩

/-- Settles O20: each clause reads off the host's next act whether a command is accepted and whether the act is done. -/
theorem aHeldCommandStaysPresented : Obligations.AHeldCommandStaysPresented := by
  intro s w rest
  obtain ⟨t, hstep, hacts⟩ := step_acts s
  refine ⟨fun hact hbusy => ?_, fun hact hbusy => ?_, ?_, fun p hact => ?_⟩
  · exact ⟨accepted_busy s hbusy, t, hstep, by simp [hacts, actDone, hostAct, hact, hbusy]⟩
  · exact ⟨accepted_busy s hbusy, t, hstep, by simp [hacts, actDone, hostAct, hact]⟩
  · rintro (hact | hact) hready
    · refine ⟨?_, t, hstep, by simp [hacts, actDone, hostAct, hact, hready]⟩
      simp [accepted, rstDriven, presented, hostAct, hact, hready]
    · refine ⟨?_, t, hstep, by simp [hacts, actDone, hostAct, hact]⟩
      simp [accepted, rstDriven, presented, hostAct, hact, hready]
  · exact ⟨accepted_rst s (by simp [rstDriven, hostAct, hact]), t, hstep, by simp [hacts, actDone, hostAct, hact]⟩

/-- Settles O35, by the twelve ways a step goes: only an ABSORB that is taken counts. -/
theorem cntCountsTheMessageBytes : Obligations.CntCountsTheMessageBytes := by
  intro s t hstep
  apply step_elim s hstep
  case onReset => rintro hrst - rfl; simp [hrst]
  case onWait => rintro hrst - hacc rfl; simp [hrst, hacc]
  case onNop => rintro hrst - hacc rfl; simp [hrst, hacc]
  case onInit => rintro hrst - hacc rfl; simp [hrst, hacc]
  case onSeq =>
    rintro hrst - ⟨⟨d, hacc⟩ | hacc, hphase⟩ rfl
    · simp [hrst, hacc, hphase]
    · simp [hrst, hacc]
  case onLen =>
    rintro hrst - hfull ⟨d, hacc⟩ rfl
    simp [hrst, hacc, (cntFull_iff s).mp hfull]
  case onByte =>
    rintro d hrst hphase hroom hacc rfl
    simp [hrst, hacc, hphase, (cntFull_false_iff s).mp hroom]
  case onFinish => rintro hrst - hacc rfl; simp [hrst, hacc]
  case onReserved =>
    rintro hrst - ⟨i, ⟨op, rfl⟩ | ⟨op, rfl⟩, hacc⟩ rfl
    · simp [hrst, hacc]
    · simp [hrst, hacc]
  case onPad => rintro hrst - hacc rfl; simp [hrst, hacc, padStep]
  case onMix => rintro hrst - hacc rfl; simp [hrst, hacc]
  case onFeedc => rintro hrst - hacc rfl; simp [hrst, hacc, feedcStep]

/-! ### The byte ABSORB takes, and the block it completes (R135) -/

/-- The state a taken byte leaves below position 15. -/
theorem absorbed_go (d : Byte) (h15 : s.POS ≠ 15) :
    advancePos .msg { loadByte d (csumStep d s) with CNT := s.CNT + 1 } =
      { s with
        C := s.C.set s.POS.val (s.C[s.POS.val] ^^^ tableEntry s.cfg (d ^^^ s.CL))
        CL := s.C[s.POS.val] ^^^ tableEntry s.cfg (d ^^^ s.CL)
        X := (s.X.set (16 + s.POS.val) d).set (32 + s.POS.val) (d ^^^ s.X[s.POS.val])
        CNT := s.CNT + 1, POS := s.POS + 1 } := by
  rw [advancePos_eq, loadByte_eq, csumStep_eq]
  exact if_neg h15

/-- The state a taken byte leaves at position 15: the block is complete and its pass starts. -/
theorem absorbed_wrap (d : Byte) (h15 : s.POS = 15) :
    advancePos .msg { loadByte d (csumStep d s) with CNT := s.CNT + 1 } =
      { s with
        C := s.C.set s.POS.val (s.C[s.POS.val] ^^^ tableEntry s.cfg (d ^^^ s.CL))
        CL := s.C[s.POS.val] ^^^ tableEntry s.cfg (d ^^^ s.CL)
        X := (s.X.set (16 + s.POS.val) d).set (32 + s.POS.val) (d ^^^ s.X[s.POS.val])
        CNT := s.CNT + 1, POS := 0, PHASE := .mix, KIND := .msg, T := 0, J := 0, K := 0 } := by
  rw [advancePos_eq, loadByte_eq, csumStep_eq]
  exact if_pos h15

/-- `run_to_ready` where the length and the end of the busy phase are known. -/
theorem run_to_destination {n : Nat} {p : Phase} (hreset : noReset s = true) (hrem : remaining s = n)
    (hdest : destination s = p) :
    (∃ u, run n s = .next u ∧ u.PHASE = p) ∧ ∀ k u, k < n → run k s = .next u → cmdReady u = false := by
  subst hrem hdest
  obtain ⟨⟨u, hrun, hend, -⟩, hbusy⟩ := run_to_ready s hreset
  exact ⟨⟨u, hrun, hend⟩, hbusy⟩

/-- Settles O10, outcome by outcome; the pass on a block that is complete has its 864 micro-steps to go (R176). -/
theorem absorbTakesAByte : Obligations.AbsorbTakesAByte := by
  intro s d hready
  refine ⟨fun w hop => ?_, exec_absorb_seq s d hready, fun hphase hfull => ?_, fun hphase hroom h15 => ?_,
    fun hphase hroom h15 => ?_⟩
  · obtain ⟨-, -, habsorb, -⟩ := decodingFollowsTheOpcodeMap w
    rw [habsorb hop]
  · exact exec_absorb_len s d hphase ((cntFull_iff s).mpr hfull)
  · rw [exec_absorb s d hphase ((cntFull_false_iff s).mpr hroom), absorbed_go d (mt (eq_fifteen_iff s.POS).mp h15)]
  · refine ⟨_, ?_, rfl, fun hreset => run_to_destination hreset rfl rfl⟩
    rw [exec_absorb s d hphase ((cntFull_false_iff s).mpr hroom), absorbed_wrap d ((eq_fifteen_iff s.POS).mpr h15)]

/-! ### What follows FINISH (R137, R138, R244) -/

theorem remaining_pad (hphase : s.PHASE = .pad) : remaining s = 1760 - s.POS.val := by
  have := s.POS.isLt
  simp only [remaining, hphase]
  omega

/-- From PAD phase at position p the core is busy for exactly 1760 - p micro-steps, and then in DONE (R138). -/
theorem padPhase_run (hphase : s.PHASE = .pad) (hreset : noReset s = true) :
    (∃ u, run (1760 - s.POS.val) s = .next u ∧ u.PHASE = .done) ∧
    ∀ k u, k < 1760 - s.POS.val → run k s = .next u → cmdReady u = false :=
  run_to_destination hreset (remaining_pad hphase) (by simp [destination, hphase])

/-- Settles O51: FINISH leaves PAD phase at the same POS; in every busy state of the run the command is held. -/
theorem afterFinishTheCoreIsBusyUntilDone : Obligations.AfterFinishTheCoreIsBusyUntilDone := by
  intro s hphase hreset
  obtain ⟨⟨u, hrun, hdone⟩, hbusy⟩ := padPhase_run (s := { s with PADV := padLeft s.POS, PHASE := .pad }) rfl hreset
  have hready : cmdReady u = true := (cmdReady_iff u).mpr (.inr (.inr hdone))
  refine ⟨_, exec_finish s hphase, ⟨u, hrun, hdone, exec_finish_seq u hready (by simp [hdone])⟩, fun k v hk hv => ?_⟩
  have hheld := hbusy k v hk hv
  exact ⟨hheld, fun i => exec_held v i hheld⟩

/-- Settles O11: a run that has not reached DONE is shorter than the 1760 - POS busy micro-steps. -/
theorem finishLatchesThePaddingLength : Obligations.FinishLatchesThePaddingLength := by
  intro s hready
  refine ⟨fun w hop => ?_, exec_finish_seq s hready, fun hphase => ?_⟩
  · obtain ⟨-, -, -, hfinish, -⟩ := decodingFollowsTheOpcodeMap w
    rw [hfinish hop]
  · refine ⟨_, exec_finish s hphase, rfl, rfl, fun hpos => ?_, fun hreset k u hrun hnotDone => ?_⟩
    · rw [padLeft_val, hpos, paddingLength]
    · obtain ⟨⟨v, hrun', hdone⟩, hbusy⟩ := padPhase_run (s := { s with PADV := padLeft s.POS, PHASE := .pad }) rfl hreset
      have hk : k < 1760 - s.POS.val := by
        by_contra hge
        exact hnotDone _ v (Nat.le_of_not_lt hge) hrun' hdone
      have hheld := hbusy k u hk hrun
      exact ⟨hheld, accepted_busy u hheld⟩

/-! ### Runs in which dig_valid stays 0 -/

/-- The run of `n` steps from `s` ends in `t`, and dig_valid is 0 before it does. -/
def QuietRun (n : Nat) (s t : State) : Prop :=
  run n s = .next t ∧ ∀ k u, k < n → run k s = .next u → digValid u = false

theorem quietRun_zero (s : State) : QuietRun 0 s s :=
  ⟨rfl, fun _ _ hk => absurd hk (Nat.not_lt_zero _)⟩

theorem QuietRun.trans {n k : Nat} (h : QuietRun n s t) (h' : QuietRun k t u) : QuietRun (n + k) s u := by
  obtain ⟨hrun, hquiet⟩ := h
  obtain ⟨hrun', hquiet'⟩ := h'
  refine ⟨(run_add s n k hrun).trans hrun', fun j v hj hv => ?_⟩
  by_cases hlt : j < n
  · exact hquiet j v hlt hv
  · obtain ⟨i, rfl⟩ := Nat.exists_eq_add_of_le (Nat.le_of_not_lt hlt)
    rw [run_add s n i hrun] at hv
    exact hquiet' i v (by omega) hv

theorem quietRun_step (hphase : s.PHASE ≠ .done) (h : step s = .next t) : QuietRun 1 s t := by
  refine ⟨run_succ s 0 h, fun k v hk hv => ?_⟩
  obtain rfl : k = 0 := by omega
  cases hv
  exact decide_eq_false hphase

/-! ### A host that only issues commands -/

/-- Every act of the host is a command held until it is accepted (R130). -/
def OnlyIssues (s : State) : Prop := ∀ a ∈ s.host.acts, ∃ w, a = .issue w

theorem OnlyIssues.resetFree (h : OnlyIssues s) : noReset s = true := by
  refine List.all_eq_true.mpr fun a ha => ?_
  obtain ⟨w, rfl⟩ := h a ha
  rfl

/-- A busy core leaves such a host's acts as they are: the next command stays presented (R130). -/
theorem OnlyIssues.acts_step (h : OnlyIssues s) (hbusy : cmdReady s = false) (hstep : step s = .next t) :
    t.host.acts = s.host.acts := by
  rw [step_host hstep, hostMoved_acts]
  cases hacts : s.host.acts with
  | nil => simp
  | cons a rest =>
    obtain ⟨w, rfl⟩ := h a (by simp [hacts])
    simp [actDone, hostAct, hacts, hbusy]

theorem OnlyIssues.acts_run (h : OnlyIssues s) {n : Nat} (hn : n ≤ remaining s) (hrun : run n s = .next t) :
    t.host.acts = s.host.acts := by
  induction n generalizing t with
  | zero => cases hrun; rfl
  | succ n ih =>
    obtain ⟨u, hu⟩ := run_completes s n
    obtain ⟨v, hv⟩ := step_completes u
    have hacts := ih (by omega) hu
    have hissues : OnlyIssues u := by rw [OnlyIssues, hacts]; exact h
    obtain rfl : v = t := by simpa [run_snoc s n hu hv] using hrun
    rw [hissues.acts_step ((run_to_ready s h.resetFree).2 n u (by omega) hu) hv, hacts]

/-- The registers that only commands and reset change: the parameters, CNT and the three flags (R154, R204). -/
def ledger (s : State) : Config × Nat × Bool × Bool × Bool := (s.cfg, s.CNT, s.ERR_ILL, s.ERR_SEQ, s.ERR_LEN)

theorem ledger_eq_iff {cfg : Config} {n : Nat} {ill seq len : Bool} :
    ledger s = (cfg, n, ill, seq, len) ↔ s.cfg = cfg ∧ s.CNT = n ∧ s.ERR_ILL = ill ∧ s.ERR_SEQ = seq ∧ s.ERR_LEN = len := by
  simp [ledger]

theorem ledger_microStep (s : State) : ledger (microStep s) = ledger s := by
  unfold microStep
  split <;> simp [ledger, padStep, feedcStep]

theorem ledger_iterate (n : Nat) (s : State) : ledger (microStep^[n] s) = ledger s := by
  induction n with
  | zero => rfl
  | succ n ih => rw [Function.iterate_succ_apply', ledger_microStep, ih]

/-- The end of a busy phase whose host only issues: the next command still stands presented, the message and what only commands
change are as before, and dig_valid is 0 until then. A ready core is at that end already. -/
theorem OnlyIssues.to_ready (h : OnlyIssues s) (htrack : Track s m) :
    ∃ t, QuietRun (remaining s) s t ∧ t.PHASE = destination s ∧ t.host.acts = s.host.acts ∧ ledger t = ledger s ∧
      Track t m := by
  obtain ⟨⟨t, hrun, hphase, -⟩, hbusy⟩ := run_to_ready s h.resetFree
  have hquiet : ∀ k u, k < remaining s → run k s = .next u → digValid u = false := by
    intro k u hk hu
    obtain hp | hp | hp := (not_cmdReady_iff u).mp (hbusy k u hk hu) <;> simp [digValid, hp]
  obtain ⟨host, hiterate, -⟩ := run_busy s (remaining s) le_rfl h.resetFree
  have hledger : ledger t = ledger s := by
    rw [hrun] at hiterate
    cases hiterate
    exact ledger_iterate (remaining s) s
  have htracked : Tracked t (messageOf (remaining s) s (some m)) := tracked_run _ htrack hrun
  rw [messageOf_busy s _ _ le_rfl h.resetFree] at htracked
  exact ⟨t, ⟨hrun, hquiet⟩, hphase, h.acts_run le_rfl hrun, hledger, htracked⟩

/-- A ready core takes the command its host issues next, and the host goes on to its next act (R130). -/
theorem step_issueCommand {i : Instr} {rest : List HostAct} (hwf : i.wellFormed = true)
    (hacts : s.host.acts = issueCommand i :: rest) (hready : cmdReady s = true) :
    step s = exec i (hostMoved s) ∧ accepted s = some i ∧ rstDriven s = false ∧ (hostMoved s).host.acts = rest := by
  have hrst : rstDriven s = false := by simp [rstDriven, hostAct, hacts, issueCommand]
  have hpresented : presented s = some (encode i) := by simp [presented, hostAct, hacts, issueCommand]
  have hexec := step_exec s hrst hready hpresented
  rw [decode_encode i hwf] at hexec
  refine ⟨hexec, ?_, hrst, ?_⟩
  · exact (accepted_eq_some s).mpr ⟨hrst, hready, encode i, hpresented, decode_encode i hwf⟩
  · simp [actDone, hostAct, hacts, issueCommand, hready]

/-! ### The core while a host hashes a message (R245) -/

/-- The core has taken the bytes `m` of a message, awaits the next command, and has raised no flag; its host has `rest` and FINISH
still to issue. -/
structure Receiving (cfg : Config) (m rest : List Byte) (s : State) : Prop where
  phase : s.PHASE = .absorb
  track : Track s m
  kept : ledger s = (cfg, m.length, false, false, false)
  acts : s.host.acts = issueBytes rest ++ [issueCommand .finish]

section Receiving

variable {cfg : Config} {rest : List Byte}

theorem onlyIssues_of_acts (h : s.host.acts = issueBytes rest ++ [issueCommand .finish]) : OnlyIssues s := by
  intro a ha
  simp only [h, issueBytes, issueCommand, List.mem_append, List.mem_map, List.mem_singleton] at ha
  obtain ⟨b, -, rfl⟩ | rfl := ha
  · exact ⟨_, rfl⟩
  · exact ⟨_, rfl⟩

theorem Receiving.ready (h : Receiving cfg m rest s) : cmdReady s = true :=
  (cmdReady_iff s).mpr (.inr (.inl h.phase))

theorem Receiving.pos (h : Receiving cfg m rest s) : s.POS.val = m.length % 16 := by
  obtain ⟨-, -, hload⟩ := (track_absorb h.phase).mp h.track
  exact hload.pos

/-- INIT opens the message (R133). -/
theorem receiving_init (hready : cmdReady s = true) (hacts : s.host.acts = expand (.hash m)) :
    ∃ t, step s = .next t ∧ Receiving s.cfg [] m t := by
  obtain ⟨hstep, -, -, hrest⟩ := step_issueCommand (i := .init) rfl hacts hready
  rw [exec_init _ ((cmdReady_hostMoved s).trans hready)] at hstep
  exact ⟨_, hstep, rfl, track_init _, rfl, hrest⟩

/-- After a byte the core awaits the next command, at once or at the end of the pass on the block it completed (R135). -/
theorem remaining_absorbed (hphase : s.PHASE = .absorb) (d : Byte) :
    remaining (advancePos .msg { loadByte d (csumStep d s) with CNT := s.CNT + 1 }) = (if s.POS = 15 then 864 else 0) ∧
    destination (advancePos .msg { loadByte d (csumStep d s) with CNT := s.CNT + 1 }) = .absorb := by
  by_cases h15 : s.POS = 15
  · rw [absorbed_wrap d h15]
    simp [remaining, destination, h15]
  · rw [absorbed_go d h15]
    simp [remaining, destination, hphase, h15]

/-- One byte: one accepted command, and 864 micro-steps where it completes a block (R135). -/
theorem Receiving.byte (h : Receiving cfg m (d :: rest) s) (hroom : m.length ≠ 2 ^ cfg.LENW - 1) :
    ∃ t, QuietRun (1 + if m.length % 16 = 15 then 864 else 0) s t ∧ Receiving cfg (m ++ [d]) rest t := by
  obtain ⟨hcfg, hcnt, hflags⟩ := ledger_eq_iff.mp h.kept
  have hnotFull : cntFull s = false := by rw [cntFull_false_iff, hcfg, hcnt]; exact hroom
  obtain ⟨hstep, hacc, hrst, hrest⟩ := step_issueCommand (i := .absorb d) rfl h.acts h.ready
  rw [exec_absorb (hostMoved s) d h.phase hnotFull] at hstep
  obtain ⟨hrem, hdest⟩ := remaining_absorbed (s := hostMoved s) h.phase d
  have htracked : Tracked _ (messageAfter s (some m)) := tracked_step h.track hstep
  have hmessage : messageAfter s (some m) = some (m ++ [d]) := by
    simp [messageAfter, hrst, hacc, absorbRaises, h.phase, hnotFull]
  rw [hmessage] at htracked
  have hacts := (congrArg HostSide.acts (step_host hstep)).trans hrest
  have hledger : ledger (advancePos .msg { loadByte d (csumStep d (hostMoved s)) with CNT := (hostMoved s).CNT + 1 }) =
      (cfg, (m ++ [d]).length, false, false, false) := by
    simp [ledger, hcfg, hcnt, hflags]
  generalize advancePos .msg { loadByte d (csumStep d (hostMoved s)) with CNT := (hostMoved s).CNT + 1 } = v at *
  obtain ⟨t, hquiet, hphase, hacts', hledger', htrack⟩ := (onlyIssues_of_acts hacts).to_ready htracked
  refine ⟨t, ?_, hphase.trans hdest, htrack, hledger'.trans hledger, hacts'.trans hacts⟩
  have h15 : (hostMoved s).POS = 15 ↔ m.length % 16 = 15 := by rw [eq_fifteen_iff, hostMoved_POS, h.pos]
  simp only [h15] at hrem
  rw [← hrem]
  exact (quietRun_step (by simp [h.phase]) hstep).trans hquiet

/-- All the bytes: one accepted command each, and 864 micro-steps for each block they complete. -/
theorem Receiving.bytes (h : Receiving cfg m rest s) (hroom : (m ++ rest).length ≤ 2 ^ cfg.LENW - 1) :
    ∃ n t, QuietRun n s t ∧ Receiving cfg (m ++ rest) [] t ∧
      n + 864 * (m.length / 16) = rest.length + 864 * ((m ++ rest).length / 16) := by
  induction rest generalizing m s with
  | nil => exact ⟨0, s, quietRun_zero s, by simpa using h, by simp⟩
  | cons d rest ih =>
    rw [List.append_cons] at hroom ⊢
    have hlen : (m ++ [d] ++ rest).length = m.length + 1 + rest.length := by simp; omega
    obtain ⟨t, hbyte, hnext⟩ := h.byte (by omega)
    obtain ⟨n, u, hbytes, hall, hn⟩ := ih hnext hroom
    refine ⟨_, u, hbyte.trans hbytes, hall, ?_⟩
    simp only [List.length_append, List.length_cons, List.length_nil] at hn ⊢
    split <;> omega

/-- FINISH: one accepted command, and the 1760 - (n mod 16) micro-steps to DONE (R137, R138). -/
theorem Receiving.finish (h : Receiving cfg m [] s) :
    ∃ t, QuietRun (1 + (1760 - m.length % 16)) s t ∧ t.PHASE = .done ∧ t.host.acts = [] ∧
      ledger t = (cfg, m.length, false, false, false) ∧ Track t m := by
  obtain ⟨hstep, hacc, hrst, hrest⟩ := step_issueCommand (i := .finish) rfl h.acts h.ready
  rw [exec_finish (hostMoved s) h.phase] at hstep
  have htracked : Tracked _ (messageAfter s (some m)) := tracked_step h.track hstep
  have hmessage : messageAfter s (some m) = some m := by simp [messageAfter, hrst, hacc]
  rw [hmessage] at htracked
  have hissues : OnlyIssues { hostMoved s with PADV := padLeft (hostMoved s).POS, PHASE := .pad } := by
    rw [OnlyIssues, hrest]
    simp
  obtain ⟨t, hquiet, hphase, hacts, hledger, htrack⟩ := hissues.to_ready htracked
  refine ⟨t, ?_, hphase, hacts.trans hrest, hledger.trans h.kept, htrack⟩
  have hrem : remaining { hostMoved s with PADV := padLeft (hostMoved s).POS, PHASE := .pad } = 1760 - m.length % 16 := by
    rw [remaining_pad rfl, ← h.pos]
    rfl
  rw [← hrem]
  exact (quietRun_step (by simp [h.phase]) hstep).trans hquiet

end Receiving

/-- Settles O50: INIT, the bytes and FINISH one after the other, each with the micro-steps that follow it. -/
theorem aWholeMessageIsHashed : Obligations.AWholeMessageIsHashed := by
  intro s m hready hroom hacts
  obtain ⟨s₁, hinit, hreceiving⟩ := receiving_init hready hacts
  obtain ⟨n, s₂, hbytes, hreceived, hn⟩ := hreceiving.bytes (by simpa using hroom)
  rw [List.nil_append] at hreceived hn
  obtain ⟨t, hfinish, hdone, hacts', hledger, htrack⟩ := hreceived.finish
  obtain ⟨hcfg, hcnt, hill, hseq, hlen⟩ := ledger_eq_iff.mp hledger
  obtain ⟨hrun, hquiet⟩ := hbytes.trans hfinish
  have hsteps : (m.length + 2) + (864 * (m.length / 16) + 1760 - m.length % 16) = n + (1 + (1760 - m.length % 16)) + 1 := by
    simp only [List.length_nil] at hn
    omega
  simp only [hsteps]
  refine ⟨⟨t, (run_succ s _ hinit).trans hrun, hdone, hacts', hcnt, hcfg, ?_, fun i => ?_⟩, fun k u hpos hk hu => ?_⟩
  · simp [statusPort_eq, openPhase, busyPhase, hdone, hill, hseq, hlen]
  · rw [← hcfg]
    exact regionZero_of_track_done hdone htrack i
  · obtain ⟨j, rfl⟩ := Nat.exists_eq_succ_of_ne_zero hpos.ne'
    rw [Nat.succ_eq_add_one, run_succ s j hinit] at hu
    exact hquiet j u (by omega) hu

end Sys2Proof.Proofs.Commands
end

section
/-! PROOF. The statements of 42_padding_checksum.md: the PAD_STEP (R152), the block PAD phase fills (R153), and what reaches the
checksum registers (R26, R156). -/

namespace Sys2Proof.Proofs.PaddingChecksum

open Sys2Proof Sys2Proof.Machine
open Sys2Proof.Proofs.CoreState Sys2Proof.Proofs.Commands

variable {s t u : State} {n : Nat}

/-! ### One step of PAD phase (R152) -/

/-- PAD_STEP as the update it makes before the end of a byte load. -/
theorem padStep_eq (s : State) :
    padStep s = advancePos .pad { s with
      C := s.C.set s.POS.val (s.C[s.POS.val] ^^^ tableEntry s.cfg (padByte s ^^^ s.CL))
      CL := s.C[s.POS.val] ^^^ tableEntry s.cfg (padByte s ^^^ s.CL)
      X := (s.X.set (16 + s.POS.val) (padByte s)).set (32 + s.POS.val) (padByte s ^^^ s.X[s.POS.val]) } := by
  rw [padStep, loadByte_eq, csumStep_eq]

theorem step_pad (hphase : s.PHASE = .pad) (hrst : rstDriven s = false) : step s = .next (padStep (hostMoved s)) := by
  rw [step_busy s hrst ((not_cmdReady_iff s).mpr (.inl hphase)), microStep_pad (hostMoved s) hphase]

/-- Settles O23: both ways of the end of a byte load, after the padding byte has entered C, CL and X. -/
theorem padStepLoadsThePaddingByte : Obligations.PadStepLoadsThePaddingByte := by
  intro s hphase hrst
  refine ⟨fun h15 => ?_, fun h15 => ?_⟩
  · rw [step_pad hphase hrst, padStep_eq, advancePos_eq]
    exact congrArg Host.Outcome.next (if_neg (mt (eq_fifteen_iff s.POS).mp h15))
  · rw [step_pad hphase hrst, padStep_eq, advancePos_eq]
    exact congrArg Host.Outcome.next (if_pos ((eq_fifteen_iff s.POS).mpr h15))

/-! ### What reaches C and CL (R26, R156) -/

/-- Settles O34, by the twelve ways a step goes: reset, INIT, a byte that is taken and PAD_STEP are the ones the hypotheses
exclude, and every other way leaves C and CL. -/
theorem theChecksumTakesOnlyMessageAndPaddingBytes : Obligations.TheChecksumTakesOnlyMessageAndPaddingBytes := by
  intro s t hstep hrst hinit hpad hrefused
  apply step_elim s hstep
  case onReset => intro hrst'; simp [hrst] at hrst'
  case onWait => rintro - - - rfl; simp
  case onNop => rintro - - - rfl; simp
  case onInit => rintro - - hacc -; exact absurd hacc hinit
  case onSeq => rintro - - - rfl; simp
  case onLen => rintro - - - - rfl; simp
  case onByte =>
    rintro d - hphase hroom hacc -
    obtain hother | hfull := hrefused d hacc
    · exact absurd hphase hother
    · exact absurd hfull ((cntFull_false_iff s).mp hroom)
  case onFinish => rintro - - - rfl; simp
  case onReserved => rintro - - - rfl; simp
  case onPad => rintro - hphase - -; exact absurd hphase hpad
  case onMix => rintro - - - rfl; simp
  case onFeedc => rintro - - - rfl; simp [feedcStep]

/-! ### The block PAD phase fills (R153) -/

/-- `u` is what `n` PAD_STEPs leave of the state `s` in PAD phase, up to the one that completes the block: the positions from
POS on hold the padding byte, and the pass starts with the last of them. -/
structure Filled (s : State) (n : Nat) (u : State) : Prop where
  padv : u.PADV = s.PADV
  cnt : u.CNT = s.CNT
  pos : u.POS.val = (s.POS.val + n) % 16
  phase : u.PHASE = if s.POS.val + n = 16 then .mix else .pad
  kind : s.POS.val + n = 16 → u.KIND = .pad
  region1 : ∀ i : Fin 16, u.X[16 + i.val] =
    if s.POS.val ≤ i.val ∧ i.val < s.POS.val + n then padByte s else s.X[16 + i.val]

theorem filled_zero (hphase : s.PHASE = .pad) : Filled s 0 s := by
  have hlt := s.POS.isLt
  refine ⟨rfl, rfl, by omega, ?_, by omega, fun i => ?_⟩
  · rw [hphase, if_neg (by omega)]
  · rw [if_neg (by omega)]

theorem padStep_region1 (u : State) (i : Fin 16) :
    (padStep u).X[16 + i.val] = if u.POS.val = i.val then padByte u else u.X[16 + i.val] := by
  have hlt := i.isLt
  have hne : 32 + u.POS.val ≠ 16 + i.val := by omega
  simp [padStep, Vector.getElem_set, hne]

/-- A PAD_STEP fills the next position of the block. -/
theorem Filled.step (h : Filled s n u) (hn : s.POS.val + n < 16) : Filled s (n + 1) (padStep u) := by
  have hpos : u.POS.val = s.POS.val + n := by rw [h.pos, Nat.mod_eq_of_lt hn]
  have hlast : u.POS = 15 ↔ s.POS.val + (n + 1) = 16 := by rw [eq_fifteen_iff]; omega
  refine ⟨?_, ?_, ?_, ?_, fun hend => ?_, fun i => ?_⟩
  · simp [padStep, h.padv]
  · simp [padStep, h.cnt]
  · simp [padStep, Fin.val_add, hpos, Nat.add_assoc]
  · have hphase : u.PHASE = .pad := h.phase.trans (if_neg (by omega))
    simp [padStep, hlast, hphase]
  · simp [padStep, hlast.mpr hend]
  · have hbyte : padByte u = padByte s := by rw [padByte, h.padv, padByte]
    rw [padStep_region1, hbyte, h.region1 i, hpos]
    by_cases hi : s.POS.val + n = i.val
    · rw [if_pos hi, if_pos (by omega)]
    · rw [if_neg hi]
      exact if_congr (by omega) rfl rfl

/-- The micro-steps of PAD phase are the PAD_STEPs up to the end of the block. -/
theorem filled_iterate (hphase : s.PHASE = .pad) (hn : s.POS.val + n ≤ 16) : Filled s n (microStep^[n] s) := by
  induction n with
  | zero => exact filled_zero hphase
  | succ n ih =>
    have hfilled := ih (by omega)
    have hpad : (microStep^[n] s).PHASE = .pad := hfilled.phase.trans (if_neg (by omega))
    rw [Function.iterate_succ_apply', microStep_pad _ hpad]
    exact hfilled.step (by omega)

/-- A run of PAD phase without a reset, up to the end of the block; nothing of it depends on the host's side. -/
theorem run_filled (hphase : s.PHASE = .pad) (hreset : noReset s = true) (hn : s.POS.val + n ≤ 16) :
    ∃ t, run n s = .next t ∧ Filled s n t := by
  obtain ⟨host, hrun, -⟩ := run_busy s n (by rw [remaining_pad hphase]; omega) hreset
  have h := filled_iterate hphase hn
  exact ⟨_, hrun, h.padv, h.cnt, h.pos, h.phase, h.kind, h.region1⟩

/-- Settles O42: PADV is the number of positions from POS to the end of the block, so PADV steps fill it and no fewer do. -/
theorem padPhaseFillsTheBlock : Obligations.PadPhaseFillsTheBlock := by
  intro s hreset hphase hpadv hpos
  have hle := s.PADV.isLt
  have hend : s.POS.val + s.PADV.val = 16 := by omega
  obtain ⟨t, hrun, hfilled⟩ := run_filled hphase hreset hend.le
  refine ⟨t, hrun, hfilled.phase.trans (if_pos hend), hfilled.kind hend, hfilled.cnt, fun i hi => ?_, fun i hi => ?_,
    fun k u hk hu => ?_⟩
  · exact (hfilled.region1 i).trans (if_pos (by omega))
  · exact (hfilled.region1 i).trans (if_neg (by omega))
  · obtain ⟨v, hv, hpartial⟩ := run_filled (n := k) hphase hreset (by omega)
    obtain rfl : u = v := by simpa [hu] using hv
    exact hpartial.phase.trans (if_neg (by omega))

end Sys2Proof.Proofs.PaddingChecksum
end

section
/-! PROOF. The statements of 43_state_datapath.md: MIX_STEP (R175, R176) and FEEDC_STEP (R178), how a pass starts (R174, R181),
and how long a busy phase lasts (R138, R244). -/

namespace Sys2Proof.Proofs.StateDatapath

open Sys2Proof Sys2Proof.Machine
open Sys2Proof.Proofs.CoreState Sys2Proof.Proofs.Commands

variable {s t u : State} {n : Nat} {v : Byte}

/-! ### The end of every busy phase (R138, R244) -/

/-- The ready phase a busy phase leads to is never IDLE. -/
theorem destination_of_busy (hbusy : cmdReady s = false) : destination s = .absorb ∨ destination s = .done := by
  obtain hphase | hphase | hphase := (not_cmdReady_iff s).mp hbusy
  · simp [destination, hphase]
  · cases hkind : s.KIND <;> simp [destination, hphase, hkind]
  · simp [destination, hphase]

/-- Settles O41: `remaining` counts the micro-steps to `destination`; it is at most 1760, 864 at the start of a message block's
pass, and 1760 - POS in PAD phase. -/
theorem busyPhasesEnd : Obligations.BusyPhasesEnd := by
  intro s hreset
  refine ⟨fun hbusy => ?_, fun hphase hkind hJ hK => ?_, fun hphase => padPhase_run hphase hreset⟩
  · obtain ⟨⟨t, hrun, hend, -⟩, -⟩ := run_to_ready s hreset
    exact ⟨remaining s, t, remaining_le s, hrun, hend ▸ destination_of_busy hbusy⟩
  · apply run_to_destination hreset
    · simp [remaining, hphase, hkind, hJ, hK]
    · simp [destination, hphase, hkind]

/-! ### One step of MIX phase (R175, R176) -/

/-- The addition at the end of a round, on numbers (R12). -/
theorem addRound_eq_ofNat (v : Byte) (j : Fin 18) : addRound v j = BitVec.ofNat 8 ((v.toNat + j.val) % 256) := by
  apply BitVec.eq_of_toNat_eq
  simp [addRound]

theorem step_mix (hphase : s.PHASE = .mix) (hrst : rstDriven s = false) : step s = .next (mixStep (hostMoved s)) := by
  rw [step_busy s hrst ((not_cmdReady_iff s).mpr (.inr (.inl hphase))), microStep_mix (hostMoved s) hphase]

/-- Settles O24, by the three ways of `mixStep_eq`: within a round, at the end of a round, and at the end of the pass. -/
theorem mixStepMixesOnePosition : Obligations.MixStepMixesOnePosition := by
  intro s hphase hrst
  have hlastK : s.K = 47 ↔ s.K.val = 47 := Fin.ext_iff
  have hlastJ : s.J = 17 ↔ s.J.val = 17 := Fin.ext_iff
  rw [step_mix hphase hrst, mixStep_eq]
  simp only [hostMoved_K, hostMoved_J, hlastK, hlastJ, addRound_eq_ofNat]
  refine ⟨fun hK => ?_, fun hK hJ => ?_, fun hK hJ => ?_⟩
  · rw [if_neg hK]
    rfl
  · rw [if_pos hK, if_neg hJ]
    rfl
  · rw [if_pos hK, if_pos hJ]
    rfl

/-! ### FEEDC phase (R178) -/

/-- FEEDC_STEP as the update it makes before the end of a byte load. -/
theorem feedcStep_eq (s : State) :
    feedcStep s = advancePos .csum { s with
      X := (s.X.set (16 + s.POS.val) s.C[s.POS.val]).set (32 + s.POS.val) (s.C[s.POS.val] ^^^ s.X[s.POS.val]) } := by
  rw [feedcStep, loadByte_eq, getC]

theorem step_feedc (hphase : s.PHASE = .feedc) (hrst : rstDriven s = false) :
    step s = .next (feedcStep (hostMoved s)) := by
  rw [step_busy s hrst ((not_cmdReady_iff s).mpr (.inr (.inr hphase))), microStep_feedc (hostMoved s) hphase]

/-- `u` is what `n` FEEDC_STEPs leave of the state `s` in FEEDC phase, up to the one that completes the checksum block: the
checksum registers are as before, and the pass starts with the last step. -/
structure Fed (s : State) (n : Nat) (u : State) : Prop where
  csum : u.C = s.C
  carry : u.CL = s.CL
  pos : u.POS.val = (s.POS.val + n) % 16
  phase : u.PHASE = if s.POS.val + n = 16 then .mix else .feedc
  kind : s.POS.val + n = 16 → u.KIND = .csum

theorem fed_zero (hphase : s.PHASE = .feedc) : Fed s 0 s := by
  have hlt := s.POS.isLt
  refine ⟨rfl, rfl, by omega, ?_, by omega⟩
  rw [hphase, if_neg (by omega)]

/-- A FEEDC_STEP loads the next position of the block. -/
theorem Fed.step (h : Fed s n u) (hn : s.POS.val + n < 16) : Fed s (n + 1) (feedcStep u) := by
  have hpos : u.POS.val = s.POS.val + n := by rw [h.pos, Nat.mod_eq_of_lt hn]
  have hlast : u.POS = 15 ↔ s.POS.val + (n + 1) = 16 := by rw [eq_fifteen_iff]; omega
  have hphase : u.PHASE = .feedc := h.phase.trans (if_neg (by omega))
  refine ⟨?_, ?_, ?_, ?_, fun hend => ?_⟩
  · simp [feedcStep, h.csum]
  · simp [feedcStep, h.carry]
  · simp [feedcStep, Fin.val_add, hpos, Nat.add_assoc]
  · simp [feedcStep, hlast, hphase]
  · simp [feedcStep, hlast.mpr hend]

/-- The micro-steps of FEEDC phase are the FEEDC_STEPs up to the end of the block. -/
theorem fed_iterate (hphase : s.PHASE = .feedc) (hn : s.POS.val + n ≤ 16) : Fed s n (microStep^[n] s) := by
  induction n with
  | zero => exact fed_zero hphase
  | succ n ih =>
    have hfed := ih (by omega)
    have hfeedc : (microStep^[n] s).PHASE = .feedc := hfed.phase.trans (if_neg (by omega))
    rw [Function.iterate_succ_apply', microStep_feedc _ hfeedc]
    exact hfed.step (by omega)

/-- A run of FEEDC phase without a reset, up to the end of the block. -/
theorem run_fed (hphase : s.PHASE = .feedc) (hreset : noReset s = true) (hn : s.POS.val + n ≤ 16) :
    ∃ t, run n s = .next t ∧ Fed s n t := by
  have hrem : n ≤ remaining s := by
    simp only [remaining, hphase]
    omega
  obtain ⟨host, hrun, -⟩ := run_busy s n hrem hreset
  have h := fed_iterate hphase hn
  exact ⟨_, hrun, h.csum, h.carry, h.pos, h.phase, h.kind⟩

/-- Settles O25: both ways of the end of a byte load, and the 16 loads from position 0 that fill the block. -/
theorem feedcStepLoadsAChecksumByte : Obligations.FeedcStepLoadsAChecksumByte := by
  intro s hphase hrst
  refine ⟨fun h15 => ?_, fun h15 => ?_, fun hreset hpos => ⟨?_, fun k u hk hu => ?_⟩⟩
  · rw [step_feedc hphase hrst, feedcStep_eq, advancePos_eq]
    exact congrArg Host.Outcome.next (if_neg (mt (eq_fifteen_iff s.POS).mp h15))
  · rw [step_feedc hphase hrst, feedcStep_eq, advancePos_eq]
    exact congrArg Host.Outcome.next (if_pos ((eq_fifteen_iff s.POS).mpr h15))
  · have hend : s.POS.val + 16 = 16 := by omega
    obtain ⟨t, hrun, hfed⟩ := run_fed hphase hreset hend.le
    exact ⟨t, hrun, hfed.phase.trans (if_pos hend), hfed.kind hend, hfed.csum, hfed.carry⟩
  · obtain ⟨t, hrun, hfed⟩ := run_fed (n := k) hphase hreset (by omega)
    obtain rfl : u = t := by simpa [hu] using hrun
    exact hfed.phase.trans (if_neg (by omega))

/-! ### How a pass starts (R174, R181) -/

/-- `t` is at the start of a pass on the block that the byte `v` completed in `s` (R170, R174). -/
structure StartsPass (s : State) (v : Byte) (t : State) : Prop where
  last : s.POS.val = 15
  counters : t.POS = 0 ∧ t.T = 0 ∧ t.J = 0 ∧ t.K = 0
  region1 : t.X[31] = v
  region2 : t.X[47] = v ^^^ s.X[15]
  others : ∀ i : Fin 48, i.val ≠ 31 → i.val ≠ 47 → t.X[i.val] = s.X[i.val]

/-- The end of the load of `v` enters MIX only after position 15 (R135, R152, R178). -/
theorem startsPass_of_load {k : Kind} (hX : u.X = (loadByte v s).X) (hpos : u.POS = s.POS) (hother : u.PHASE ≠ .mix)
    (hmix : (advancePos k u).PHASE = .mix) : StartsPass s v (advancePos k u) := by
  have h15 : u.POS = 15 := by
    by_contra hne
    rw [advancePos_PHASE, if_neg hne] at hmix
    exact hother hmix
  have hval : s.POS.val = 15 := (eq_fifteen_iff s.POS).mp (hpos ▸ h15)
  refine ⟨hval, ?_, ?_, ?_, fun i h31 h47 => ?_⟩
  · simp [advancePos_eq, h15]
  · simp [hX, hval]
  · simp [hX, hval]
  · simp [hX, hval, Ne.symm h31, Ne.symm h47]

/-- Settles O38, by the twelve ways a step goes: a step enters MIX only as the end of a byte load, and each of the three loads
takes its own byte. -/
theorem aPassStartsOnlyByLoadingPositionFifteen : Obligations.APassStartsOnlyByLoadingPositionFifteen := by
  intro s t hstep hother hmix
  suffices hpass : ∃ v : Byte,
      ((s.PHASE = .absorb ∧ accepted s = some (.absorb v)) ∨ (s.PHASE = .pad ∧ v = BitVec.ofNat 8 s.PADV.val) ∨
        (s.PHASE = .feedc ∧ v = s.C[15])) ∧ StartsPass s v t by
    obtain ⟨v, hsource, h⟩ := hpass
    obtain ⟨hpos, hT, hJ, hK⟩ := h.counters
    exact ⟨h.last, hpos, hT, hJ, hK, ⟨v, hsource, h.region1, h.region2⟩, h.others⟩
  apply step_elim s hstep
  case onReset => rintro - - rfl; cases hmix
  case onWait => rintro - - - rfl; exact absurd hmix hother
  case onNop => rintro - - - rfl; exact absurd hmix hother
  case onInit => rintro - - - rfl; cases hmix
  case onSeq => rintro - - - rfl; exact absurd hmix hother
  case onLen => rintro - - - - rfl; exact absurd hmix hother
  case onByte =>
    rintro d - hphase - hacc rfl
    exact ⟨d, .inl ⟨hphase, hacc⟩, startsPass_of_load rfl rfl hother hmix⟩
  case onFinish => rintro - - - rfl; cases hmix
  case onReserved => rintro - - - rfl; exact absurd hmix hother
  case onPad =>
    rintro - hphase - rfl
    exact ⟨padByte s, .inr (.inl ⟨hphase, rfl⟩), startsPass_of_load rfl rfl hother hmix⟩
  case onMix => rintro - hphase - -; exact absurd hphase hother
  case onFeedc =>
    rintro - hphase - rfl
    have hpass : StartsPass s (getC s s.POS) (feedcStep (hostMoved s)) := startsPass_of_load rfl rfl hother hmix
    exact ⟨getC s s.POS, .inr (.inr ⟨hphase, by simp [getC, hpass.last]⟩), hpass⟩

end Sys2Proof.Proofs.StateDatapath
end

section
/-! PROOF. The statements of 44_output_mux.md: what every select shows (R190), the bits of the status port (R193), and how the
digest is held in DONE (R195). -/

namespace Sys2Proof.Proofs.OutputMux

open Sys2Proof Sys2Proof.Machine

variable {s : State}

/-! ### The output multiplexer (R190) -/

theorem digOut_of_done (draw : Byte) (sel : BitVec 4) (hdone : s.PHASE = .done) :
    digOut draw sel s = getX s (region0 (selected sel)) := if_pos hdone

theorem digOut_of_not_done (draw : Byte) (sel : BitVec 4) (hphase : s.PHASE ≠ .done) : digOut draw sel s = draw :=
  if_neg hphase

/-- Settles O27, by the two branches of the multiplexer. -/
theorem digestReadOut : Obligations.DigestReadOut :=
  fun _ sel draw => ⟨fun hdone => digOut_of_done draw sel hdone, fun hphase => digOut_of_not_done draw sel hphase⟩

/-! ### The digest in DONE (R195) -/

/-- In DONE a command other than INIT raises a flag at most (R131, R135, R137, R139). -/
theorem exec_of_done (hdone : s.PHASE = .done) {i : Instr} (hinit : i ≠ .init) :
    ∃ ill seq, exec i s = .next { s with ERR_ILL := ill, ERR_SEQ := seq } := by
  have hready : cmdReady s = true := (cmdReady_iff s).mpr (.inr (.inr hdone))
  have hphase : s.PHASE ≠ .absorb := by simp [hdone]
  cases i with
  | nop => exact ⟨s.ERR_ILL, s.ERR_SEQ, exec_nop s⟩
  | init => exact absurd rfl hinit
  | absorb d => exact ⟨s.ERR_ILL, true, exec_absorb_seq s d hready hphase⟩
  | finish => exact ⟨s.ERR_ILL, true, exec_finish_seq s hready hphase⟩
  | reservedLow op => exact ⟨true, s.ERR_SEQ, exec_reservedLow s op hready⟩
  | reservedHigh op => exact ⟨true, s.ERR_SEQ, exec_reservedHigh s op hready⟩

/-- In DONE a step with neither rst nor an accepted INIT moves the host's side and raises a flag at most. -/
theorem step_of_done (hdone : s.PHASE = .done) (hrst : rstDriven s = false) (hinit : accepted s ≠ some .init) :
    ∃ ill seq, step s = .next { hostMoved s with ERR_ILL := ill, ERR_SEQ := seq } := by
  have hready : cmdReady s = true := (cmdReady_iff s).mpr (.inr (.inr hdone))
  cases hpresented : presented s with
  | none => exact ⟨s.ERR_ILL, s.ERR_SEQ, step_wait s hrst hready hpresented⟩
  | some w =>
    rw [step_exec s hrst hready hpresented]
    apply exec_of_done (s := hostMoved s) hdone
    exact fun hdec => hinit ((accepted_eq_some s).mpr ⟨hrst, hready, w, hpresented, hdec⟩)

theorem step_of_accepted_init (hinit : accepted s = some .init) :
    step s = .next { clearRegisters (hostMoved s) with PHASE := .absorb } := by
  obtain ⟨hrst, hready, w, hpresented, hdec⟩ := (accepted_eq_some s).mp hinit
  rw [step_exec s hrst hready hpresented, hdec, exec_init (hostMoved s) hready]

/-- Settles O29: only an accepted INIT leaves DONE, and what any other step leaves shows the same region 0. -/
theorem theDigestIsHeld : Obligations.TheDigestIsHeld := by
  intro s t hdone hrst hstep
  refine ⟨fun hother => ?_, fun hinit => ?_⟩
  · obtain ⟨ill, seq, hnext⟩ := step_of_done hdone hrst hother
    cases hstep.symm.trans hnext
    refine ⟨hdone, rfl, fun d e sel => ?_⟩
    rw [digOut_of_done e sel hdone]
    exact digOut_of_done d sel hdone
  · cases hstep.symm.trans (step_of_accepted_init hinit)
    exact ⟨rfl, rfl, fun i => Vector.getElem_replicate i.isLt⟩

/-! ### The status port (R193) -/

theorem busyPhase_eq (p : Phase) : busyPhase p = decide (p = .pad ∨ p = .mix ∨ p = .feedc) := by
  cases p <;> rfl

theorem openPhase_eq (p : Phase) : openPhase p = decide (p = .absorb ∨ p = .pad ∨ p = .mix ∨ p = .feedc) := by
  cases p <;> rfl

theorem not_cmdReady (s : State) : (!cmdReady s) = busyPhase s.PHASE := Bool.not_not _

/-- The table of R193: the bits of the status port, from bit 0 up. -/
def statusBits (s : State) : List Bool :=
  [busyPhase s.PHASE, digValid s, openPhase s.PHASE, false, s.ERR_ILL, s.ERR_SEQ, s.ERR_LEN, false]

theorem statusPort_getLsbD (s : State) (i : Fin 8) : (statusPort s).getLsbD i.val = (statusBits s)[i.val]'i.isLt := by
  simp only [statusPort, BitVec.getLsbD_append, BitVec.getLsbD_ofBool]
  fin_cases i <;> simp [statusBits]

/-- Settles O26, by the table of the bits; busyPhase and openPhase are the phases R193 lists. -/
theorem statusPortBits : Obligations.StatusPortBits := by
  intro s
  refine ⟨?_, ?_, statusPort_getLsbD s 1, statusPort_getLsbD s 1, ?_, statusPort_getLsbD s 3, statusPort_getLsbD s 4,
    statusPort_getLsbD s 5, statusPort_getLsbD s 6, statusPort_getLsbD s 7, rfl⟩
  · exact (statusPort_getLsbD s 0).trans (busyPhase_eq s.PHASE)
  · exact (statusPort_getLsbD s 0).trans (not_cmdReady s).symm
  · exact (statusPort_getLsbD s 2).trans (openPhase_eq s.PHASE)

end Sys2Proof.Proofs.OutputMux
end

section
/-! PROOF. The statements of 60_exceptions.md: the checks a command passes and the one flag it sets (R202, R206, R207), and what
sets and clears the error flags (R204, R211). -/

namespace Sys2Proof.Proofs.Exceptions

open Sys2Proof Sys2Proof.Machine
open Sys2Proof.Proofs.Commands Sys2Proof.Proofs.Encoding Sys2Proof.Proofs.OutputMux

variable {s t : State}

/-! ### The error flags through a step (R204, R211) -/

/-- The three sticky error flags (R35). -/
def errorFlags (s : State) : Bool × Bool × Bool := (s.ERR_ILL, s.ERR_SEQ, s.ERR_LEN)

/-- Every error flag that is set in `s` is set in `t`. -/
def FlagsKept (s t : State) : Prop :=
  (s.ERR_ILL = true → t.ERR_ILL = true) ∧ (s.ERR_SEQ = true → t.ERR_SEQ = true) ∧ (s.ERR_LEN = true → t.ERR_LEN = true)

theorem flagsKept_of_eq (h : errorFlags s = errorFlags t) : FlagsKept s t := by
  obtain ⟨hill, hseq, hlen⟩ : s.ERR_ILL = t.ERR_ILL ∧ s.ERR_SEQ = t.ERR_SEQ ∧ s.ERR_LEN = t.ERR_LEN := by
    simpa [errorFlags] using h
  exact ⟨hill.symm.trans, hseq.symm.trans, hlen.symm.trans⟩

theorem flagsKept_of_clear (h : errorFlags s = (false, false, false)) : FlagsKept s t := by
  simp_all [errorFlags, FlagsKept]

/-- The micro-steps touch no error flag: the flags are part of the ledger. -/
theorem errorFlags_microStep (s : State) : errorFlags (microStep s) = errorFlags s :=
  congrArg (fun registers => registers.2.2) (ledger_microStep s)

/-- An accepted command other than INIT clears no flag: it sets one or leaves all three (R206). -/
theorem flagsKept_exec {i : Instr} (hready : cmdReady s = true) (hinit : i ≠ .init) (hexec : exec i s = .next t) :
    FlagsKept s t := by
  obtain ⟨-, e⟩ | ⟨hi, -⟩ | ⟨-, -, -, e⟩ | ⟨-, -, -, -, e⟩ | ⟨d, -, -, -, e⟩ | ⟨-, -, e⟩ | ⟨-, -, e⟩ | ⟨-, e⟩ :=
    exec_cases s i hready
  case inr.inl => exact absurd hi hinit
  all_goals
    cases hexec.symm.trans e
    simp [FlagsKept]

/-- Settles O36: of the four ways a step goes, a reset is excluded, a command is not INIT, and the other two leave the flags. -/
theorem onlyInitAndResetClearAFlag : Obligations.OnlyInitAndResetClearAFlag := by
  intro s t hstep hrst hinit
  obtain ⟨hrst', -⟩ | ⟨-, -, -, rfl⟩ | ⟨-, hready, i, hacc, hexec⟩ | ⟨-, -, -, rfl⟩ := step_cases s hstep
  · simp [hrst] at hrst'
  · exact flagsKept_of_eq rfl
  · have hother : i ≠ .init := fun hi => hinit (hi ▸ hacc)
    exact flagsKept_exec (s := hostMoved s) hready hother hexec
  · exact flagsKept_of_eq (errorFlags_microStep (hostMoved s)).symm

/-- Settles O37: a reset and INIT leave all flags clear; a wait, NOP and a micro-step leave them as they were. -/
theorem whatNeverRaises : Obligations.WhatNeverRaises := by
  intro s t hstep hquiet
  suffices hkept : FlagsKept t s from hkept
  obtain ⟨-, -, rfl⟩ | ⟨-, -, -, rfl⟩ | ⟨-, hready, i, hacc, hexec⟩ | ⟨-, -, -, rfl⟩ := step_cases s hstep
  · exact flagsKept_of_clear rfl
  · exact flagsKept_of_eq rfl
  · obtain rfl | rfl : i = .nop ∨ i = .init := by simpa [hacc] using hquiet
    · cases hexec.symm.trans (exec_nop (hostMoved s))
      exact flagsKept_of_eq rfl
    · cases hexec.symm.trans (exec_init (hostMoved s) hready)
      exact flagsKept_of_clear rfl
  · exact flagsKept_of_eq (errorFlags_microStep (hostMoved s))

/-! ### The checks of a command (R202, R206, R207) -/

/-- Settles O15, by the rows of the opcode map; the commands whose checks pass are NOP and INIT, and ABSORB and FINISH in ABSORB
phase. -/
theorem theFirstFailedCheckDecidesTheFlag : Obligations.TheFirstFailedCheckDecidesTheFlag := by
  intro s w hready
  obtain ⟨hnop, hinit, habsorb, hfinish, -⟩ := decodingFollowsTheOpcodeMap w
  obtain ⟨hreserved, -⟩ := reservedCodesRaiseErrIll s hready
  refine ⟨hreserved w, fun hlo hhi hphase => ?_, fun hop hphase hfull => ?_, fun hop hphase hroom => ?_⟩
  · obtain hop | hop : w.toNat / 256 = 2 ∨ w.toNat / 256 = 3 := by omega
    · rw [habsorb hop, exec_absorb_seq s _ hready hphase]
    · rw [hfinish hop, exec_finish_seq s hready hphase]
  · rw [habsorb hop, exec_absorb_len s _ hphase ((cntFull_iff s).mpr hfull)]
  · obtain hop | hop | hop | hop :
        w.toNat / 256 = 0 ∨ w.toNat / 256 = 1 ∨ w.toNat / 256 = 2 ∨ w.toNat / 256 = 3 := by omega
    · exact ⟨s, by rw [hnop hop, exec_nop], by simp [hop]⟩
    · exact ⟨_, by rw [hinit hop, exec_init s hready], by simp [hop]⟩
    · have hcnt : cntFull s = false := (cntFull_false_iff s).mpr (hroom hop)
      exact ⟨_, by rw [habsorb hop, exec_absorb s _ (hphase hop.ge) hcnt], by simp [hop]⟩
    · exact ⟨_, by rw [hfinish hop, exec_finish s (hphase (by omega))], by simp [hop]⟩

/-- Settles O13: IDLE and DONE are ready phases other than ABSORB, where the phase check of both commands fails. -/
theorem outOfPhaseCommandsRaiseErrSeq : Obligations.OutOfPhaseCommandsRaiseErrSeq := by
  intro s d hphase
  have hready : cmdReady s = true := (cmdReady_iff s).mpr (hphase.imp_right .inr)
  have hclosed : s.PHASE ≠ .absorb := by rintro habsorb; simp [habsorb] at hphase
  exact ⟨exec_absorb_seq s d hready hclosed, exec_finish_seq s hready hclosed,
    statusPort_getLsbD { s with ERR_SEQ := true } 5⟩

end Sys2Proof.Proofs.Exceptions
end

section
/-! PROOF. The statement of 70_reset_and_hazards.md: a step with rst = 1, from every phase (R230). -/

namespace Sys2Proof.Proofs.ResetAndHazards

open Sys2Proof Sys2Proof.Machine

variable (s : State)

/-! ### The host's act and the outputs (R51, R193) -/

/-- A reset act drives rst, whatever it presents beside it. -/
theorem rstDriven_of_reset {s : State} {p : Option Word} {rest : List HostAct} (hacts : s.host.acts = .reset p :: rest) :
    rstDriven s = true := by
  simp [rstDriven, hostAct, hacts]

/-- In IDLE with clear flags no status bit is set (R193). -/
@[simp] theorem statusPort_applyReset : statusPort (applyReset s) = 0x00 := by
  simp [statusPort_eq, openPhase, busyPhase]

@[simp] theorem digValid_applyReset : digValid (applyReset s) = false := rfl

@[simp] theorem cmdReady_applyReset : cmdReady (applyReset s) = true := rfl

/-- Settles O21: with rst = 1 the step is `applyReset`, which reads neither the phase nor the presented word. -/
theorem resetFromEveryPhase : Obligations.ResetFromEveryPhase := by
  intro s p rest hacts
  have hrst : rstDriven s = true := rstDriven_of_reset hacts
  refine ⟨accepted_rst s hrst, applyReset (hostMoved s), step_reset s hrst, rfl, ?_⟩
  exact ⟨statusPort_applyReset _, digValid_applyReset _, cmdReady_applyReset _⟩

end Sys2Proof.Proofs.ResetAndHazards
end

section
/-! PROOF. The words of 30_encoding.md and the rows of opcode_table.json (R70 to R74), the reads of 20_memory.md (R58, R62), and
region 0 of 43_state_datapath.md (R24, R171). -/

namespace Sys2Proof.Proofs.OpcodeTable

open Sys2Proof

/-- Settles O1: each word is a literal, and its decoding computes. -/
theorem wordsOfTheSpecDecode : Obligations.WordsOfTheSpecDecode := by
  unfold Obligations.WordsOfTheSpecDecode
  decide

/-! ### Rows that look at the op bits only (R73, R74) -/

/-- A word is its two fields, op before data (R70). -/
theorem opField_append_dataField (w : Word) : opField w ++ dataField w = w :=
  BitVec.extractLsb'_append_extractLsb'

/-- A row whose mask leaves out the data bits is a condition on op alone (R72). -/
theorem and_mask_eq_iff (w : Word) (mask bits : BitVec 4) :
    w &&& (mask ++ 0#8) = bits ++ 0#8 ↔ opField w &&& mask = bits := by
  have hfields : w &&& (mask ++ 0#8) = (opField w &&& mask) ++ 0#8 := by
    calc w &&& (mask ++ 0#8)
        = (opField w ++ dataField w) &&& (mask ++ 0#8) := by rw [opField_append_dataField]
      _ = (opField w &&& mask) ++ 0#8 := by rw [BitVec.and_append, BitVec.and_zero]
  rw [hfields, BitVec.append_left_inj]

/-- The commands and reserved rows as conditions on op, in both directions (R74). -/
theorem decode_iff (w : Word) :
    (decode w = .nop ↔ (opField w).toNat = 0) ∧ (decode w = .init ↔ (opField w).toNat = 1) ∧
    ((∃ d, decode w = .absorb d) ↔ (opField w).toNat = 2) ∧ (decode w = .finish ↔ (opField w).toNat = 3) ∧
    ((∃ op, decode w = .reservedLow op) ↔ 4 ≤ (opField w).toNat ∧ (opField w).toNat ≤ 7) ∧
    ((∃ op, decode w = .reservedHigh op) ↔ 8 ≤ (opField w).toNat) := by
  obtain ⟨hop, hdec⟩ | ⟨hop, hdec⟩ | ⟨hop, hdec⟩ | ⟨hop, hdec⟩ | ⟨hlow, hhigh, hdec⟩ | ⟨hlow, hdec⟩ := decode_cases w
  · simp [hop, hdec]
  · simp [hop, hdec]
  · simp [hop, hdec]
  · simp [hop, hdec]
  · simp [hdec]; omega
  · simp [hdec]; omega

/-- What the four op bits of each row's match and mask select. -/
theorem masked_op_iff : ∀ op : BitVec 4,
    (op &&& 0xF = 0x0 ↔ op.toNat = 0) ∧ (op &&& 0xF = 0x1 ↔ op.toNat = 1) ∧ (op &&& 0xF = 0x2 ↔ op.toNat = 2) ∧
    (op &&& 0xF = 0x3 ↔ op.toNat = 3) ∧ (op &&& 0xC = 0x4 ↔ 4 ≤ op.toNat ∧ op.toNat ≤ 7) ∧
    (op &&& 0x8 = 0x8 ↔ 8 ≤ op.toNat) := by decide

/-- Settles O5: a row's match and mask select an op or a range of ops, and so does the decoder. -/
theorem opcodeTableRowsSelectTheirCommands : Obligations.OpcodeTableRowsSelectTheirCommands := by
  intro w
  obtain ⟨hnop, hinit, habsorb, hfinish, hlow, hhigh⟩ := decode_iff w
  obtain ⟨mnop, minit, mabsorb, mfinish, mlow, mhigh⟩ := masked_op_iff (opField w)
  exact ⟨(and_mask_eq_iff w 0xF 0x0).trans (mnop.trans hnop.symm), (and_mask_eq_iff w 0xF 0x1).trans (minit.trans hinit.symm),
    (and_mask_eq_iff w 0xF 0x2).trans (mabsorb.trans habsorb.symm),
    (and_mask_eq_iff w 0xF 0x3).trans (mfinish.trans hfinish.symm),
    (and_mask_eq_iff w 0xC 0x4).trans (mlow.trans hlow.symm), (and_mask_eq_iff w 0x8 0x8).trans (mhigh.trans hhigh.symm)⟩

end Sys2Proof.Proofs.OpcodeTable

namespace Sys2Proof.Proofs.OutputReads

open Sys2Proof Sys2Proof.Machine

variable {s : State}

/-- In a ready phase the sequencer does nothing (R22). -/
theorem microStep_of_ready (hready : cmdReady s = true) : microStep s = s := by
  obtain hphase | hphase | hphase := (cmdReady_iff s).mp hready
  · simp [microStep, hphase]
  · simp [microStep, hphase]
  · simp [microStep, hphase]

/-- A step with neither rst nor a command is the micro-step of the phase, and the host's side moves on (R17, R243). -/
theorem step_of_no_input (hrst : rstDriven s = false) (hnone : presented s = none) :
    step s = .next (withHost (hostMoved s).host (microStep s)) := by
  cases hready : cmdReady s with
  | true => rw [step_wait s hrst hready hnone, microStep_of_ready hready, ← hostMoved_eq]
  | false => rw [step_busy s hrst hready, ← microStep_withHost, ← hostMoved_eq]

/-- With another host's side that drives neither, the core takes the same micro-step. -/
theorem step_withHost_of_no_input {h : HostSide} (hrst : rstDriven (withHost h s) = false)
    (hnone : presented (withHost h s) = none) :
    step (withHost h s) = .next (withHost (hostMoved (withHost h s)).host (microStep s)) := by
  rw [step_of_no_input hrst hnone, microStep_withHost, withHost_withHost]

/-- Settles O28: neither a read nor a wait drives rst or a command, so both steps are the same micro-step of the core, and only
the host's side differs. -/
theorem readingTheOutputsChangesNoState : Obligations.ReadingTheOutputsChangesNoState := by
  intro s sel rest hacts
  have hact : hostAct s = .sample sel := by simp [hostAct, hacts]
  have hread : step s = .next (withHost (hostMoved s).host (microStep s)) :=
    step_of_no_input (by simp [rstDriven, hact]) (by simp [presented, hact])
  refine ⟨_, _, Config.digDraw s.host.draws sel, hread, step_withHost_of_no_input rfl rfl, rfl, ?_, ?_, fun hready => ?_⟩
  · simp [actDone, hact, hacts]
  · simp [sampled, hact]
  · rw [microStep_of_ready hready]
    rfl

end Sys2Proof.Proofs.OutputReads

namespace Sys2Proof.Proofs.RegionZero

open Sys2Proof Sys2Proof.Machine

variable {s u : State} {v : Byte}

/-- A byte load writes regions 1 and 2 only (R24, R170). -/
theorem loadByte_regionZero (v : Byte) (s : State) (i : Fin 16) : (loadByte v s).X[i.val] = s.X[i.val] := by
  have hlt := i.isLt
  have h1 : 16 + s.POS.val ≠ i.val := by omega
  have h2 : 32 + s.POS.val ≠ i.val := by omega
  simp [h1, h2]

/-- Whatever else changes with it, the load of a byte to its end leaves region 0 (R135, R152, R178). -/
theorem regionZero_of_load (k : Kind) (hX : u.X = (loadByte v s).X) (i : Fin 16) :
    (advancePos k u).X[i.val] = s.X[i.val] := by
  simp only [advancePos_X, hX]
  exact loadByte_regionZero v s i

/-- Settles O33, by the twelve ways a step goes: reset, INIT and MIX_STEP are the ones the hypotheses exclude; a byte load leaves
region 0, and no other way writes X. -/
theorem regionZeroIsChangedOnlyByMixing : Obligations.RegionZeroIsChangedOnlyByMixing := by
  intro s t hstep hother hrst hinit i
  apply step_elim s hstep
  case onReset => intro hrst'; simp [hrst] at hrst'
  case onWait => rintro - - - rfl; rfl
  case onNop => rintro - - - rfl; rfl
  case onInit => rintro - - hacc -; exact absurd hacc hinit
  case onSeq => rintro - - - rfl; rfl
  case onLen => rintro - - - - rfl; rfl
  case onByte =>
    rintro d - - - - rfl
    exact regionZero_of_load (v := d) .msg (by rfl) i
  case onFinish => rintro - - - rfl; rfl
  case onReserved => rintro - - - rfl; rfl
  case onPad => rintro - - - rfl; exact regionZero_of_load (v := padByte s) .pad rfl i
  case onMix => rintro - hphase - -; exact absurd hphase hother
  case onFeedc => rintro - - - rfl; exact regionZero_of_load (v := getC s s.POS) .csum rfl i

end Sys2Proof.Proofs.RegionZero
end
